-- ==== Sys2Proof/Word.lean ====
section
/-! DEFINITION. The plain types of the engine: bytes, words, frames, digests, the bit vector (spec/00_scope.md R7, R8). -/

namespace Sys2Proof

/-- A byte, a pattern of 8 bits (R7; R100: its sign has no meaning). -/
abbrev Byte := BitVec 8

/-- A storage word, a pattern of 64 bits (R7, R11; R100: its sign has no meaning). -/
abbrev Word := BitVec 64

/-- A frame on a port: a byte sequence whose ends the transport marks (spec/30_encoding.md R42). -/
abbrev Frame := List Byte

/-- The output of the hash, exactly 32 bytes (R6). -/
abbrev Digest := Vector Byte 32

/-- The BitVector: 32 words of 64 bits, word 0 first (spec/10_state.md R10, R11). -/
abbrev BV := Vector Word 32

/-- A bit index of the BitVector in the vector numbering: 0 is the most significant bit of word 0
(R8(b), spec/10_state.md R12). -/
abbrev BitIndex := Fin 2048

end Sys2Proof
end

