-- ==== Sys2Proof/Config.lean ====
section
/-! DEFINITION. What is fixed for the machine: the constants of spec/00_scope.md R5 and the hash parameter of R6.
The sizes also stand in the types of Word.lean; Laws/Config.lean proves that the two agree. -/

namespace Sys2Proof.Config

/-- `NUM_BITS` (R5). -/
def numBits : Nat := 2048

/-- `WORD_BITS` (R5). -/
def wordBits : Nat := 64

/-- `NUM_WORDS` (R5). -/
def numWords : Nat := 32

/-- `NUM_BYTES` (R5): the length of the serialized form. -/
def numBytes : Nat := 256

/-- `NUM_HASH` (R5): the bit positions derived per item. -/
def numHash : Nat := 3

/-- `PAIR_OFFSETS` (R5): the digest offsets of the byte pairs, in the order they are visited. -/
def pairOffsets : List Nat := [0, 2, 4]

/-- `DIGEST_BYTES` (R5). -/
def digestBytes : Nat := 32

/-- `H_BITS` (R5): the width of the value assembled from a byte pair. -/
def hBits : Nat := 32

/-- `ARG_BITS` (R5): the width of the header's operand field. -/
def argBits : Nat := 24

/-- `MAX_PAYLOAD` at its default (R5; spec/30_encoding.md R55). The spec leaves it open within bounds
(spec/92_eei_decisions.md D24): the decoder takes it as an argument and `step` uses this value
(DESIGN CHOICE, log entry 2). -/
def maxPayload : Nat := 16777215

/-- The bounds within which the spec lets `MAX_PAYLOAD` be chosen (R55). -/
def maxPayloadLegal (n : Nat) : Bool := 256 ≤ n && n ≤ 2 ^ 28 - 1

/-- The hash: a total function from byte sequences to 32 bytes, of which nothing else is assumed (R6).
It has no body, so that a claim about the engine holds whatever function the collaborator computes
(log entry 1; safe). -/
opaque keccak256 : List Byte → Digest

end Sys2Proof.Config
end

