-- ==== Sys2Proof/Syntax.lean ====
section
/-! DEFINITION. The abstract command set of spec/30_encoding.md R43: typed commands in, typed responses out. -/

namespace Sys2Proof

/-- The thirteen commands (R43). The operand of `insert` and `contains` is optional: `none` is the spec's
`absent`, which is not the zero-length sequence `some []` (spec/90_conflicts.md C2). -/
inductive Instr where
  | clear
  | load (buf : List Byte)
  | store
  | insert (d : Option (List Byte))
  | contains (d : Option (List Byte))
  | bitpos (dg : Digest)
  | bvset (idx : Nat)
  | bvget (idx : Nat)
  | bvpop
  | popcnt (buf : List Byte)
  | u32be (b0 b1 b2 b3 : Byte)
  | pack (ws : List Word)
  | unpack (buf : List Byte)
deriving DecidableEq, Repr

/-- The mnemonic of a command (R43). -/
def Instr.mnemonic : Instr → String
  | .clear => "CLEAR"
  | .load _ => "LOAD"
  | .store => "STORE"
  | .insert _ => "INSERT"
  | .contains _ => "CONTAINS"
  | .bitpos _ => "BITPOS"
  | .bvset _ => "BVSET"
  | .bvget _ => "BVGET"
  | .bvpop => "BVPOP"
  | .popcnt _ => "POPCNT"
  | .u32be _ _ _ _ => "U32BE"
  | .pack _ => "PACK"
  | .unpack _ => "UNPACK"

/-- The kinds of error (spec/60_exceptions.md R101). The first four are the source's, the fifth is the decoder's. -/
inductive ErrorKind where
  /-- Raised by the function `bv_new` only, never by a command (R102). -/
  | invalidSize
  /-- Raised by LOAD and UNPACK (R103). -/
  | invalidLength
  /-- Raised by BVSET and BVGET (R104). -/
  | indexOutOfRange
  /-- Raised by nothing in the engine (R105). -/
  | decodeError
  /-- Raised for a frame that is no command (R106). -/
  | illegalCommand
deriving DecidableEq, Repr

/-- The results of the commands, with the types of R43. -/
inductive Result where
  | none
  | bytes (bs : List Byte)
  | bool (b : Bool)
  | positions (p0 p1 p2 : BitIndex)
  | count (n : Nat)
  | u32 (v : BitVec 32)
  | words (ws : List Word)
deriving DecidableEq, Repr

/-- A response: `ok(result)` or `error(kind)` (R43). -/
inductive Response where
  | ok (r : Result)
  | error (k : ErrorKind)
deriving DecidableEq, Repr

/-- The seven command formats (spec/30_encoding.md R45). -/
inductive Format where
  /-- none -/
  | n
  /-- index -/
  | i
  /-- payload -/
  | p
  /-- optional data -/
  | d
  /-- digest -/
  | g
  /-- quad -/
  | q
  /-- words -/
  | w
deriving DecidableEq, Repr

end Sys2Proof
end

