-- ==== Sys2Proof/Machine/Operands.lean ====
section
/-! DEFINITION. Byte order, bit slices, and the ByteCodec functions (spec/00_scope.md R8, R9; spec/20_memory.md R26;
spec/42_bytecodec.md R89 to R92). Every other file takes its byte order from `beNat` and `beBytes`. -/

namespace Sys2Proof.Machine

/-- `v[hi:lo]` in place-value numbering: `(v >> lo) mod 2^(hi-lo+1)` (R8(a)). -/
def slice (v hi lo : Nat) : Nat := v / 2 ^ lo % 2 ^ (hi - lo + 1)

/-- The number whose big-endian bytes are `bs`: the first byte is the most significant (R26). -/
def beNat (bs : List Byte) : Nat := bs.foldl (fun acc b => acc * 256 + b.toNat) 0

/-- The `n` low bytes of `v`, most significant first (R26). -/
def beBytes : Nat → Nat → List Byte
  | 0, _ => []
  | n + 1, v => BitVec.ofNat 8 (v / 256 ^ n) :: beBytes n v

/-- `word_be(b)` for an 8-byte sequence (R9). -/
def wordBE (bs : List Byte) : Word := BitVec.ofNat 64 (beNat bs)

/-- `be64(w)`: the 8 bytes of a word, most significant first (R9). -/
def be64 (w : Word) : List Byte := beBytes 8 w.toNat

/-- The words of a byte sequence, 8 bytes each, first word first: `[word_be(b[8k..8k+8)) for k]` (R92, R45). Bytes
after the last whole word are not looked at; the callers have checked that there are none. -/
def wordsBE (bs : List Byte) : List Word :=
  (List.range (bs.length / 8)).map fun k => wordBE ((bs.drop (8 * k)).take 8)

/-- The number of 1 bits among the 8 bit positions of a byte (R89). -/
def byteOnes (b : Byte) : Nat := (List.range 8).countP fun n => b.getLsbD n

/-- `bc_popcount(buf)` (R89). -/
def bcPopcount (buf : List Byte) : Nat := (buf.map byteOnes).sum

/-- `b & 0xFF` of an integer, negative ones in two's complement, which is `b mod 256` (R90; K4). -/
def low8 (b : Int) : Nat := (b % 256).toNat

/-- `bc_u32FromBytes(b0, b1, b2, b3)` for any integers: each is masked to its low 8 bits and the first is the most
significant; the result is unsigned (R90; spec/90_conflicts.md C4). -/
def bcU32FromBytes (b0 b1 b2 b3 : Int) : BitVec 32 :=
  BitVec.ofNat 32 (low8 b0 * 2 ^ 24 + low8 b1 * 2 ^ 16 + low8 b2 * 2 ^ 8 + low8 b3)

/-- `bc_longsToBytes(words)` (R91). -/
def bcLongsToBytes (ws : List Word) : List Byte := ws.flatMap be64

/-- `bc_bytesToLongs(buf)` (R92). -/
def bcBytesToLongs (buf : List Byte) : Except ErrorKind (List Word) :=
  if buf.length % 8 ≠ 0 then .error .invalidLength else .ok (wordsBE buf)

end Sys2Proof.Machine
end

