-- ==== Sys2Proof/WellFormed.lean ====
section
/-! DEFINITION. Which commands can be sent: the bounds that spec/30_encoding.md R45, R46 and R55 put on operands.
The other bounds (32 digest bytes, four bytes of U32BE, whole words of PACK) are facts of the types. -/

namespace Sys2Proof

/-- Well-formedness under a greatest payload length `maxPayload`: an index fits the 24-bit operand field, a payload
is not longer than `maxPayload` (R46, R55). -/
def Instr.wfWith (maxPayload : Nat) : Instr → Bool
  | .clear => true
  | .load buf => buf.length ≤ maxPayload
  | .store => true
  | .insert none => true
  | .insert (some data) => data.length ≤ maxPayload
  | .contains none => true
  | .contains (some data) => data.length ≤ maxPayload
  | .bitpos _ => 32 ≤ maxPayload
  | .bvset idx => idx < 2 ^ Config.argBits
  | .bvget idx => idx < 2 ^ Config.argBits
  | .bvpop => true
  | .popcnt buf => buf.length ≤ maxPayload
  | .u32be _ _ _ _ => 4 ≤ maxPayload
  | .pack ws => 8 * ws.length ≤ maxPayload
  | .unpack buf => buf.length ≤ maxPayload

/-- Well-formedness under the default `MAX_PAYLOAD`. -/
def Instr.wf (i : Instr) : Bool := i.wfWith Config.maxPayload

end Sys2Proof
end

