-- ==== Sys2Proof/Decode.lean ====
section
/-! DEFINITION. Command frames (spec/30_encoding.md R44 to R48, R53): the decoder, total on any byte sequence and
rejecting by name, then the encoder, then the opcode table as rows of match and mask. -/

namespace Sys2Proof

open Sys2Proof.Machine

/-- Why a frame is illegal (R53). All of them are answered alike, with status `IllegalCommand`. -/
inductive IllegalFrame where
  /-- Shorter than the 4 header bytes. -/
  | tooShort
  /-- The payload is longer than `MAX_PAYLOAD`. -/
  | payloadTooLong
  /-- One of the opcodes that R47 does not list. -/
  | opcodeUnassigned
  /-- A bit of `arg` is set that the format wants zero. -/
  | argReserved
  /-- The payload has a length that the format does not allow. -/
  | payloadLength
deriving DecidableEq, Repr

/-- What a frame decodes to: a command or illegal (R48). -/
inductive Decoded where
  | command (i : Instr)
  | illegal (r : IllegalFrame)
deriving DecidableEq, Repr

/-- The header of a frame as one number, `H = F[0]*2^24 + F[1]*2^16 + F[2]*2^8 + F[3]` (R44). -/
def headerOf (f : Frame) : Nat := beNat (f.take 4)

/-- The field `op = H[31:24]` (R44). -/
def headerOp (h : Nat) : Nat := slice h 31 24

/-- The field `arg = H[23:0]` (R44). -/
def headerArg (h : Nat) : Nat := slice h 23 0

/-- The payload of a frame, `F[4..len(F))` (R44). -/
def payloadOf (f : Frame) : List Byte := f.drop 4

/-- `c` if `arg` is zero and the payload condition `ok` holds, else illegal: the check of formats N, P, Q, W (R45). -/
def requireZeroArg (arg : Nat) (ok : Bool) (c : Instr) : Decoded :=
  if arg ≠ 0 then .illegal .argReserved else if ok then .command c else .illegal .payloadLength

/-- Format D (R45): `A = H[0]` says whether the operand is absent, every other bit of `arg` is zero, and an absent
operand has no payload. -/
def decodeOptional (arg : Nat) (p : List Byte) (mk : Option (List Byte) → Instr) : Decoded :=
  if arg = 0 then .command (mk (some p))
  else if arg = 1 then (if p.length = 0 then .command (mk none) else .illegal .payloadLength)
  else .illegal .argReserved

/-- Format I (R45): `idx = arg`, unsigned, and no payload. -/
def decodeIndex (arg : Nat) (p : List Byte) (mk : Nat → Instr) : Decoded :=
  if p.length = 0 then .command (mk arg) else .illegal .payloadLength

/-- Format G (R45): `arg` zero and a payload of exactly 32 bytes, the digest. -/
def decodeDigest (arg : Nat) (p : List Byte) : Decoded :=
  if arg ≠ 0 then .illegal .argReserved
  else if h : p.length = 32 then .command (.bitpos ⟨p.toArray, h⟩) else .illegal .payloadLength

/-- Format Q (R45): `arg` zero and a payload of exactly four bytes. -/
def decodeQuad (arg : Nat) (p : List Byte) : Decoded :=
  if arg ≠ 0 then .illegal .argReserved
  else match p with
    | [b0, b1, b2, b3] => .command (.u32be b0 b1 b2 b3)
    | _ => .illegal .payloadLength

/-- The case distinction of R48 on the opcode. -/
def decodeFields (op arg : Nat) (p : List Byte) : Decoded :=
  match op with
  | 0x01 => requireZeroArg arg (p.length = 0) .clear
  | 0x02 => requireZeroArg arg true (.load p)
  | 0x03 => requireZeroArg arg (p.length = 0) .store
  | 0x04 => decodeOptional arg p .insert
  | 0x05 => decodeOptional arg p .contains
  | 0x06 => decodeDigest arg p
  | 0x10 => decodeIndex arg p .bvset
  | 0x11 => decodeIndex arg p .bvget
  | 0x12 => requireZeroArg arg (p.length = 0) .bvpop
  | 0x20 => requireZeroArg arg true (.popcnt p)
  | 0x21 => decodeQuad arg p
  | 0x22 => requireZeroArg arg (p.length % 8 = 0) (.pack (wordsBE p))
  | 0x23 => requireZeroArg arg true (.unpack p)
  | _ => .illegal .opcodeUnassigned

/-- `decode(F)` of R48, with `MAX_PAYLOAD` as an argument (R55). -/
def decodeWith (maxPayload : Nat) (f : Frame) : Decoded :=
  if f.length < 4 then .illegal .tooShort
  else if maxPayload < (payloadOf f).length then .illegal .payloadTooLong
  else decodeFields (headerOp (headerOf f)) (headerArg (headerOf f)) (payloadOf f)

/-- The decoder at the default `MAX_PAYLOAD`. -/
def decode (f : Frame) : Decoded := decodeWith Config.maxPayload f

/-- A frame from its opcode, its operand field and its payload (R44). -/
def frameOf (op arg : Nat) (p : List Byte) : Frame := beBytes 4 (op * 2 ^ 24 + arg) ++ p

/-- The frame of a command, written from the formats of R45 and the opcodes of R47. -/
def encode : Instr → Frame
  | .clear => frameOf 0x01 0 []
  | .load buf => frameOf 0x02 0 buf
  | .store => frameOf 0x03 0 []
  | .insert none => frameOf 0x04 1 []
  | .insert (some data) => frameOf 0x04 0 data
  | .contains none => frameOf 0x05 1 []
  | .contains (some data) => frameOf 0x05 0 data
  | .bitpos dg => frameOf 0x06 0 dg.toList
  | .bvset idx => frameOf 0x10 idx []
  | .bvget idx => frameOf 0x11 idx []
  | .bvpop => frameOf 0x12 0 []
  | .popcnt buf => frameOf 0x20 0 buf
  | .u32be b0 b1 b2 b3 => frameOf 0x21 0 [b0, b1, b2, b3]
  | .pack ws => frameOf 0x22 0 (bcLongsToBytes ws)
  | .unpack buf => frameOf 0x23 0 buf

/-- A row of the opcode map (R47). -/
structure OpcodeRow where
  mnemonic : String
  format : Format
  headerMatch : Nat
  headerMask : Nat
deriving DecidableEq, Repr

/-- The opcode map (R47), row by row as the spec's table has it. The decoder does not read it: that the two agree is
a statement. -/
def opcodeTable : List OpcodeRow :=
  [⟨"CLEAR", .n, 0x01000000, 0xFFFFFFFF⟩, ⟨"LOAD", .p, 0x02000000, 0xFFFFFFFF⟩,
   ⟨"STORE", .n, 0x03000000, 0xFFFFFFFF⟩, ⟨"INSERT", .d, 0x04000000, 0xFFFFFFFE⟩,
   ⟨"CONTAINS", .d, 0x05000000, 0xFFFFFFFE⟩, ⟨"BITPOS", .g, 0x06000000, 0xFFFFFFFF⟩,
   ⟨"BVSET", .i, 0x10000000, 0xFF000000⟩] ++
  [⟨"BVGET", .i, 0x11000000, 0xFF000000⟩, ⟨"BVPOP", .n, 0x12000000, 0xFFFFFFFF⟩,
   ⟨"POPCNT", .p, 0x20000000, 0xFFFFFFFF⟩, ⟨"U32BE", .q, 0x21000000, 0xFFFFFFFF⟩,
   ⟨"PACK", .w, 0x22000000, 0xFFFFFFFF⟩, ⟨"UNPACK", .p, 0x23000000, 0xFFFFFFFF⟩]

/-- The payload condition of a format, for a header `h` and a payload of `len` bytes (R45, last column of R47). -/
def Format.payloadOk (h len : Nat) : Format → Bool
  | .n => len = 0
  | .i => len = 0
  | .p => true
  | .d => slice h 0 0 = 0 || len = 0
  | .g => len = 32
  | .q => len = 4
  | .w => len % 8 = 0

/-- A frame selects a row when its header matches under the mask and the payload condition holds (R47). -/
def OpcodeRow.selects (r : OpcodeRow) (f : Frame) : Bool :=
  headerOf f &&& r.headerMask = r.headerMatch && r.format.payloadOk (headerOf f) (payloadOf f).length

/-- The shortest payload of zeros with which a header of the table is a command that has its effect: 256 bytes for
LOAD, 32 for BITPOS, 4 for U32BE, none for the others (log entry 11). -/
def tablePayloadLength (h : Nat) : Nat :=
  match headerOp h with
  | 0x02 => 256
  | 0x06 => 32
  | 0x21 => 4
  | _ => 0

/-- The frame of an instruction whose `nbits` table bits are `w`: the header is bits 31 to 0, most significant byte
first; each further 8 bits are one payload byte; the payload is filled with zeros to `tablePayloadLength`. -/
def frameOfTableWord (nbits w : Nat) : Frame :=
  let v := w % 2 ^ nbits
  let h := v % 2 ^ 32
  let n := max ((nbits - 32) / 8) (tablePayloadLength h)
  beBytes 4 h ++ (List.range n).map fun j => BitVec.ofNat 8 (v / 2 ^ (32 + 8 * j))

/-- The command the decoder reads from a word numbered as spec/opcode_table.json numbers it. -/
def decodeTableWord (nbits w : Nat) : Option Instr :=
  match decode (frameOfTableWord nbits w) with
  | .command i => some i
  | .illegal _ => none

end Sys2Proof
end

