-- ==== Sys2Proof/Machine/Response.lean ====
section
/-! DEFINITION. Response frames (spec/30_encoding.md R50 to R52): the status byte, then the result, most significant
byte first. The engine has no flags (spec/10_state.md R16): this status is the only report a command makes. -/

namespace Sys2Proof.Machine

/-- The status byte of a success (R51). -/
def statusOk : Byte := 0x00

/-- The status byte of an error kind (R51). -/
def statusOf : ErrorKind → Byte
  | .invalidSize => 0x01
  | .invalidLength => 0x02
  | .indexOutOfRange => 0x03
  | .decodeError => 0x04
  | .illegalCommand => 0xFF

/-- The bytes of a result (R52). -/
def resultBytes : Result → List Byte
  | .none => []
  | .bytes bs => bs
  | .bool b => [if b then 0x01 else 0x00]
  | .positions p0 p1 p2 => beBytes 2 p0.val ++ beBytes 2 p1.val ++ beBytes 2 p2.val
  | .count n => beBytes 4 n
  | .u32 v => beBytes 4 v.toNat
  | .words ws => bcLongsToBytes ws

/-- The response frame: one status byte, then the result; after an error the status byte alone (R50). -/
def responseFrame : Response → Frame
  | .ok r => statusOk :: resultBytes r
  | .error k => [statusOf k]

end Sys2Proof.Machine
end

