-- ==== Sys2Proof/Machine/State.lean ====
section
/-! DEFINITION. The state of the engine and its ports, the reasons a step can stop, and the state after reset
(spec/10_state.md R10, R24; spec/30_encoding.md R42; spec/70_reset_and_hazards.md R116, R117). -/

namespace Sys2Proof.Machine

/-- A command in progress whose digest reply has not come (spec/70_reset_and_hazards.md R117, R122; U6). -/
inductive DigestWait where
  | insert (data : List Byte)
  | contains (data : List Byte)
deriving DecidableEq, Repr

/-- The engine and its ports. `bv` is the engine's entire mutable state (R10); `rx`, `cmdPort` and `digestWait` are
what R24 and R117 say of the transport and of a command in progress; `rspPort`, `digPort` and `digestReplies` are the
model's own fields (log entries 3 and 4). -/
structure State where
  /-- `BV`, as the words `W[0]` to `W[31]` (R11). -/
  bv : BV
  /-- The bytes of a command frame whose end the transport has not marked yet (R24, R117). -/
  rx : List Byte
  /-- The command frames delivered and not answered, oldest first (R35, R42). -/
  cmdPort : List Frame
  /-- The response frames emitted, oldest first (R42, R49). -/
  rspPort : List Frame
  /-- The digest requests sent, oldest first (R42, R56). -/
  digPort : List (List Byte)
  /-- The command that waits for its digest reply, if any (R117, R122). -/
  digestWait : Option DigestWait
  /-- Whether the HashDigest collaborator answers requests (R118, R122). -/
  digestReplies : Bool
deriving DecidableEq, Repr

/-- Why a step can stop. -/
inductive Fault where
  /-- Raised by `resumeDigest` (a step of the engine while a command waits for a digest that the collaborator does not
  send). U6 of spec/93_implementation_defined.md calls it stuck: no step, the engine never responds, only a reset ends
  it. Safe: nothing is claimed past it. -/
  | digestNoReply
deriving DecidableEq, Repr

/-- Why an instruction can have no meaning. -/
inductive Refusal where
  /-- Raised by an arm of `exec` whose instruction has no meaning yet; no arm of this model raises it. Safe. -/
  | notModelled (mnemonic : String)
deriving DecidableEq, Repr

/-- Right after reset: `BV` is all zero (R24, R116), no frame partly received, no command in progress (R117). That no
frame has passed a port yet and that the collaborator replies are the model's (DESIGN CHOICE, log entries 3 and 4). -/
def State.reset : State where
  bv := Vector.replicate 32 0
  rx := []
  cmdPort := []
  rspPort := []
  digPort := []
  digestWait := none
  digestReplies := true

end Sys2Proof.Machine
end

