-- ==== Sys2Proof/Machine/Ops.lean ====
section
/-! DEFINITION. The named operations: the views of `BV` (spec/10_state.md R11 to R15), its byte space (spec/00_scope.md
R9), and what every command does at the ports, an error among it (spec/60_exceptions.md R110), a digest transaction
(spec/30_encoding.md R56) and a reset (spec/70_reset_and_hazards.md R117). -/

namespace Sys2Proof.Machine

/-! ### The views of the bit vector -/

/-- `bit(i) = W[i / 64][63 - (i mod 64)]` (R12). -/
def bitAt (v : BV) (i : BitIndex) : Bool :=
  (v[i.val / 64]'(by have := i.isLt; omega)).getLsbD (63 - i.val % 64)

/-- `B[j] = W[j / 8][63 - 8*(j mod 8) : 56 - 8*(j mod 8)]` (R13). -/
def byteAt (v : BV) (j : Fin 256) : Byte :=
  (v[j.val / 8]'(by have := j.isLt; omega)).extractLsb' (56 - 8 * (j.val % 8)) 8

/-- The big-integer view: the number whose big-endian representation is `B[0] .. B[255]` (R15). -/
def bigInteger (v : BV) : Nat := beNat (List.ofFn (byteAt v))

/-- `MemRead(j, n)`: the bytes `B[j]` to `B[j+n-1]` in that order (R9). -/
def memRead (v : BV) (j n : Nat) (h : j + n ≤ 256) : List Byte :=
  List.ofFn fun t : Fin n => byteAt v ⟨j + t.val, by omega⟩

/-- `MemWrite(j, n, b)`: the bytes `B[j]` to `B[j+n-1]` become the bytes of `b`, every other byte stays (R9). -/
def memWrite (v : BV) (j n : Nat) (b : Vector Byte n) : BV :=
  Vector.ofFn fun k : Fin 32 => wordBE <| List.ofFn fun m : Fin 8 =>
    if h : j ≤ 8 * k.val + m.val ∧ 8 * k.val + m.val < j + n then b[8 * k.val + m.val - j]
    else byteAt v ⟨8 * k.val + m.val, by omega⟩

/-- The bit vector with the one bit `i` set: `W[k] <- W[k] | 2^n` with `k = i / 64`, `n = 63 - (i mod 64)` (R66). -/
def setBit (v : BV) (i : BitIndex) : BV :=
  v.set (i.val / 64)
    ((v[i.val / 64]'(by have := i.isLt; omega)) ||| BitVec.twoPow 64 (63 - i.val % 64))
    (by have := i.isLt; omega)

/-- The empty vector: every word 0 (R24, R63). -/
def emptyBV : BV := Vector.replicate 32 0

/-- A memory as a list of (address, byte) pairs: a view, since `BV` itself holds every byte (log entry 10). -/
abbrev Memory := List Host.Cell

/-- The canonical form: addresses of the byte space, strictly rising, and no byte that an unlisted address reads as. -/
def Memory.wf (m : Memory) : Bool :=
  m.all (fun c => c.1 < 256 && c.2 ≠ 0) && decide (m.Pairwise fun a b => a.1 < b.1)

/-- What an unlisted address reads as: zero, the reset value (R24). -/
def Memory.read (m : Memory) (j : Nat) : Byte := ((m.find? fun c => c.1 = j).map Prod.snd).getD 0

/-- The byte view of `BV` as such a list. -/
def memoryOf (v : BV) : Memory :=
  (List.finRange 256).filterMap fun j => if byteAt v j = 0 then none else some (j.val, byteAt v j)

/-! ### What a command does at the ports -/

/-- The response leaves on the response port (R42, R49, R50). -/
def State.emit (r : Response) (s : State) : State := { s with rspPort := s.rspPort ++ [responseFrame r] }

/-- `raise <Error>`: the response is the status byte alone and nothing else changes (R9, R110). -/
def State.raise (k : ErrorKind) (s : State) : State := s.emit (.error k)

/-- `respond(v)`: the response carries status OK and the result (R9). -/
def State.respond (r : Result) (s : State) : State := s.emit (.ok r)

/-- `BV <- v` (R9). -/
def State.setBV (v : BV) (s : State) : State := { s with bv := v }

/-- How every command ends: with a new value of `BV` and a result, or with an error that leaves `BV` as it was
(R110). -/
def State.conclude (r : Except ErrorKind (BV × Result)) (s : State) :
    Host.Outcome State Fault Refusal :=
  match r with
  | .ok (v, res) => .next ((s.setBV v).respond res)
  | .error k => .next (s.raise k)

/-- A digest request leaves on the digest port: exactly the data (R56). -/
def State.requestDigest (data : List Byte) (s : State) : State := { s with digPort := s.digPort ++ [data] }

/-- The frame the engine takes next, and the state once it is taken (R35). -/
def State.fetch (s : State) : Option (Frame × State) :=
  match s.cmdPort with
  | [] => none
  | f :: rest => some (f, { s with cmdPort := rest })

/-! ### What the outside does -/

/-- What the host side can do between steps (R22, R42, R117, R118). There is no event for a frame's begin mark: a frame
begins with the first byte after an end mark or a reset (DESIGN CHOICE, log entry 21). -/
inductive HostEvent where
  /-- One byte of a command frame arrives. -/
  | byte (b : Byte)
  /-- The transport marks the end of the frame. With no byte before it the frame is empty (log entry 21). -/
  | frameEnd
  /-- Reset. -/
  | reset
  /-- The HashDigest collaborator starts or ceases to answer. -/
  | digestPort (replies : Bool)
deriving DecidableEq, Repr

/-- Reset (R116, R117): `BV` is all zero; a frame partly received, a command in progress and a digest transaction in
flight are dropped and get no response. Frames delivered behind the one in progress are dropped too (DESIGN CHOICE, log
entry 6). What has passed the ports stays in their records. -/
def State.hostReset (s : State) : State :=
  { s with bv := emptyBV, rx := [], cmdPort := [], digestWait := none }

/-- The effect of an event of the host side. What arrives after a reset of a frame that the reset cut short is taken as
a new frame: R117 and R42 do not say what becomes of its remaining bytes and its end mark (DESIGN CHOICE, log
entry 21). -/
def State.applyHost (e : HostEvent) (s : State) : State :=
  match e with
  | .byte b => { s with rx := s.rx ++ [b] }
  | .frameEnd => { s with cmdPort := s.cmdPort ++ [s.rx], rx := [] }
  | .reset => s.hostReset
  | .digestPort replies => { s with digestReplies := replies }

end Sys2Proof.Machine
end

