-- ==== Sys2Proof/Machine/BitVector.lean ====
section
/-! DEFINITION. The BitVector functions (spec/40_bitvector.md R63 to R67) and the commands BVSET (R69) and BVGET
(R70). -/

namespace Sys2Proof.Machine

/-- `bv_new(numBits)` (R63): `numBits/64` zero words; `InvalidSize` when `numBits` is not a positive multiple of 64.
No command takes a size (R102): the engine's vector is `bv_new(2048)`. -/
def bvNew (numBits : Int) : Except ErrorKind (List Word) :=
  if numBits ≤ 0 ∨ numBits % 64 ≠ 0 then .error .invalidSize
  else .ok (List.replicate (numBits / 64).toNat 0)

/-- `bv_fromBytes(buf)` (R64); inverse of `bvToBytes` (R68). -/
def bvFromBytes (buf : List Byte) : Except ErrorKind BV :=
  if buf.length ≠ 256 then .error .invalidLength
  else .ok (Vector.ofFn fun k : Fin 32 => wordBE ((buf.drop (8 * k.val)).take 8))

/-- `bv_toBytes(v)` (R65); inverse of `bvFromBytes` (R68). -/
def bvToBytes (v : BV) : List Byte := bcLongsToBytes v.toList

/-- The bit index that an integer names, or `IndexOutOfRange` (R66, R67; spec/90_conflicts.md C3). -/
def bitIndex (i : Int) : Except ErrorKind BitIndex :=
  if h : i < 0 ∨ 2048 ≤ i then .error .indexOutOfRange else .ok ⟨i.toNat, by omega⟩

/-- `bv_set(v, i)` (R66). -/
def bvSet (v : BV) (i : Int) : Except ErrorKind BV := (bitIndex i).map (setBit v)

/-- `bv_get(v, i)` (R67). -/
def bvGet (v : BV) (i : Int) : Except ErrorKind Bool := (bitIndex i).map (bitAt v)

/-- `BVSET idx` (R69). -/
def execBvset (idx : Nat) (s : State) : Host.Outcome State Fault Refusal :=
  s.conclude ((bvSet s.bv idx).map fun v => (v, .none))

/-- `BVGET idx` (R70). -/
def execBvget (idx : Nat) (s : State) : Host.Outcome State Fault Refusal :=
  s.conclude ((bvGet s.bv idx).map fun b => (s.bv, .bool b))

end Sys2Proof.Machine
end

