-- ==== Sys2Proof/Machine/BloomFilter.lean ====
section
/-! DEFINITION. The digest-to-bit-position mapping (spec/41_bloomfilter.md R72, R73) and the commands CLEAR, LOAD,
STORE, INSERT, CONTAINS and BITPOS (R75 to R80). -/

namespace Sys2Proof.Machine

/-- The value `h` of a byte pair, assembled under two zero bytes (R72). -/
def bfH (d0 d1 : Byte) : BitVec 32 := bcU32FromBytes 0 0 d0.toNat d1.toNat

/-- `bf_pos(d0, d1) = 2048 - 1 - (h mod 2048)`, with unsigned modulo (R72). -/
def bfPos (d0 d1 : Byte) : BitIndex := ⟨2048 - 1 - (bfH d0 d1).toNat % 2048, by omega⟩

/-- The position of the byte pair at the digest offsets `i`, `i + 1` (R72). -/
def bfPairPos (dg : Digest) (i : Nat) (h : i + 1 < 32) : BitIndex := bfPos dg[i] dg[i + 1]

/-- `bf_positions(dg)`: the pairs at offsets 0, 2, 4, in this order (R73; spec/90_conflicts.md C1). -/
def bfPositions (dg : Digest) : List BitIndex :=
  [bfPairPos dg 0 (by decide), bfPairPos dg 2 (by decide), bfPairPos dg 4 (by decide)]

/-- The loop of INSERT (R78): set the bits of the positions, one after another. -/
def bfMark (v : BV) (ps : List BitIndex) : BV := ps.foldl setBit v

/-- The loop of CONTAINS (R79): test the bits of the positions in order, stopping at the first unset bit. -/
def bfTest (v : BV) : List BitIndex → Bool
  | [] => true
  | p :: ps => if bitAt v p then bfTest v ps else false

/-- `insert` as a function of the filter, for any hash (R78, R6). -/
def bfInsert (hash : List Byte → Digest) (v : BV) : Option (List Byte) → BV
  | none => v
  | some data => bfMark v (bfPositions (hash data))

/-- `contains` as a function of the filter, for any hash (R79, R6). -/
def bfContains (hash : List Byte → Digest) (v : BV) : Option (List Byte) → Bool
  | none => false
  | some data => bfTest v (bfPositions (hash data))

/-- The part of INSERT and CONTAINS after the digest reply has come (R78, R79). -/
def completeDigest (w : DigestWait) (s : State) : Host.Outcome State Fault Refusal :=
  match w with
  | .insert data => s.conclude (.ok (bfInsert Config.keccak256 s.bv (some data), .none))
  | .contains data => s.conclude (.ok (s.bv, .bool (bfContains Config.keccak256 s.bv (some data))))

/-- The data a waiting command has sent as its digest request. -/
def DigestWait.data : DigestWait → List Byte
  | .insert data => data
  | .contains data => data

/-- One digest transaction (spec/30_encoding.md R56): the request is sent; with the reply the command completes in the
same step; without it the command stays in progress (R122; log entry 5). -/
def startDigest (w : DigestWait) (s : State) : Host.Outcome State Fault Refusal :=
  if s.digestReplies then completeDigest w (s.requestDigest w.data)
  else .next { s.requestDigest w.data with digestWait := some w }

/-- A step of the engine while a command waits for its digest: it completes once the collaborator replies, and until
then there is no step (U6; log entry 5). -/
def resumeDigest (w : DigestWait) (s : State) : Host.Outcome State Fault Refusal :=
  if s.digestReplies then completeDigest w { s with digestWait := none } else .fault .digestNoReply

/-- `CLEAR` (R75). -/
def execClear (s : State) : Host.Outcome State Fault Refusal := s.conclude (.ok (emptyBV, .none))

/-- `LOAD buf` (R76). -/
def execLoad (buf : List Byte) (s : State) : Host.Outcome State Fault Refusal :=
  s.conclude ((bvFromBytes buf).map fun v => (v, .none))

/-- `STORE` (R77). -/
def execStore (s : State) : Host.Outcome State Fault Refusal :=
  s.conclude (.ok (s.bv, .bytes (bvToBytes s.bv)))

/-- `INSERT d` (R78): an absent operand is tested first and does nothing. -/
def execInsert (d : Option (List Byte)) (s : State) : Host.Outcome State Fault Refusal :=
  match d with
  | none => s.conclude (.ok (s.bv, .none))
  | some data => startDigest (.insert data) s

/-- `CONTAINS d` (R79): an absent operand is tested first and answers false. -/
def execContains (d : Option (List Byte)) (s : State) : Host.Outcome State Fault Refusal :=
  match d with
  | none => s.conclude (.ok (s.bv, .bool false))
  | some data => startDigest (.contains data) s

/-- `BITPOS dg` (R80). -/
def execBitpos (dg : Digest) (s : State) : Host.Outcome State Fault Refusal :=
  s.conclude (.ok (s.bv, .positions (bfPairPos dg 0 (by decide)) (bfPairPos dg 2 (by decide))
    (bfPairPos dg 4 (by decide))))

end Sys2Proof.Machine
end

