-- ==== Sys2Proof/Machine/ByteCodec.lean ====
section
/-! DEFINITION. The commands over the ByteCodec functions: POPCNT, BVPOP, U32BE, PACK, UNPACK (spec/42_bytecodec.md
R94 to R98). -/

namespace Sys2Proof.Machine

/-- `POPCNT buf` (R94). -/
def execPopcnt (buf : List Byte) (s : State) : Host.Outcome State Fault Refusal :=
  s.conclude (.ok (s.bv, .count (bcPopcount buf)))

/-- `BVPOP` (R95): the bit count of the serialized filter. -/
def execBvpop (s : State) : Host.Outcome State Fault Refusal :=
  s.conclude (.ok (s.bv, .count (bcPopcount (bvToBytes s.bv))))

/-- `U32BE b0 b1 b2 b3` (R96). -/
def execU32be (b0 b1 b2 b3 : Byte) (s : State) : Host.Outcome State Fault Refusal :=
  s.conclude (.ok (s.bv, .u32 (bcU32FromBytes b0.toNat b1.toNat b2.toNat b3.toNat)))

/-- `PACK ws` (R97). -/
def execPack (ws : List Word) (s : State) : Host.Outcome State Fault Refusal :=
  s.conclude (.ok (s.bv, .bytes (bcLongsToBytes ws)))

/-- `UNPACK buf` (R98). -/
def execUnpack (buf : List Byte) (s : State) : Host.Outcome State Fault Refusal :=
  s.conclude ((bcBytesToLongs buf).map fun ws => (s.bv, .words ws))

end Sys2Proof.Machine
end

