-- ==== Sys2Proof/Machine/Dispatch.lean ====
section
/-! DEFINITION. One arm per command (spec/30_encoding.md R43). -/

namespace Sys2Proof.Machine

/-- The effect of a command: one direct call of its meaning. -/
def exec (i : Instr) (s : State) : Host.Outcome State Fault Refusal :=
  match i with
  | .clear => Sys2Proof.Machine.execClear s
  | .load buf => Sys2Proof.Machine.execLoad buf s
  | .store => Sys2Proof.Machine.execStore s
  | .insert d => Sys2Proof.Machine.execInsert d s
  | .contains d => Sys2Proof.Machine.execContains d s
  | .bitpos dg => Sys2Proof.Machine.execBitpos dg s
  | .bvset idx => Sys2Proof.Machine.execBvset idx s
  | .bvget idx => Sys2Proof.Machine.execBvget idx s
  | .bvpop => Sys2Proof.Machine.execBvpop s
  | .popcnt buf => Sys2Proof.Machine.execPopcnt buf s
  | .u32be b0 b1 b2 b3 => Sys2Proof.Machine.execU32be b0 b1 b2 b3 s
  | .pack ws => Sys2Proof.Machine.execPack ws s
  | .unpack buf => Sys2Proof.Machine.execUnpack buf s

end Sys2Proof.Machine
end

