-- ==== Sys2Proof/Machine/Step.lean ====
section
/-! DEFINITION. One step of the engine: one command, from acceptance to response (spec/20_memory.md R31, R35;
spec/30_encoding.md R49; spec/70_reset_and_hazards.md R123). -/

namespace Sys2Proof.Machine

/-- One step, for any `MAX_PAYLOAD` (R55). A command in progress comes first (R49); else the oldest frame is taken
(R35), decoded (R48), and executed or answered `IllegalCommand` (R53). An engine with no frame holds its state (log
entry 17). -/
def stepWith (maxPayload : Nat) (s : State) : Host.Outcome State Fault Refusal :=
  match s.digestWait with
  | some w => resumeDigest w s
  | none =>
    match s.fetch with
    | none => .next s
    | some (f, s') =>
      match decodeWith maxPayload f with
      | .illegal _ => .next (s'.raise .illegalCommand)
      | .command i => exec i s'

/-- One step of the engine at the default `MAX_PAYLOAD`. -/
def step (s : State) : Host.Outcome State Fault Refusal := stepWith Config.maxPayload s

/-- The state in which the very next step takes the frame of a table word: the frame is the oldest on the command
port, and no command is in progress that would come before it (log entry 11). -/
def State.withFetchWord (s : State) (nbits w : Nat) : State :=
  { s with cmdPort := frameOfTableWord nbits w :: s.cmdPort, digestWait := none }

end Sys2Proof.Machine
end

