-- ==== Sys2Proof/Machine/Assembler.lean ====
section
/-! DEFINITION. The textual spelling of commands and its aliases (spec/30_encoding.md R57, R58). Text is a list of
characters; where R57 leaves a detail open, log entry 16 says what is accepted. -/

namespace Sys2Proof.Machine

/-- The value of a hexadecimal digit, in either case. -/
def hexDigit (c : Char) : Option Nat :=
  if '0' ≤ c ∧ c ≤ '9' then some (c.toNat - 48)
  else if 'a' ≤ c ∧ c ≤ 'f' then some (c.toNat - 87)
  else if 'A' ≤ c ∧ c ≤ 'F' then some (c.toNat - 55)
  else none

/-- The value of a decimal digit. -/
def decDigit (c : Char) : Option Nat := if '0' ≤ c ∧ c ≤ '9' then some (c.toNat - 48) else none

/-- A number from its digits in a base, first digit most significant; `none` if a character is no digit. -/
def digitsValue (base : Nat) (digit : Char → Option Nat) (cs : List Char) : Option Nat :=
  cs.foldl (fun acc c => acc.bind fun n => (digit c).map fun d => n * base + d) (some 0)

/-- Two hexadecimal digits per byte, first byte first (R57). -/
def hexBytes : List Char → Option (List Byte)
  | [] => some []
  | [_] => none
  | h :: l :: rest =>
    match hexDigit h, hexDigit l, hexBytes rest with
    | some a, some b, some bs => some (BitVec.ofNat 8 (a * 16 + b) :: bs)
    | _, _, _ => none

/-- A byte sequence, `x"` hex digits `"` (R57). -/
def bytesToken : List Char → Option (List Byte)
  | 'x' :: '"' :: rest => if rest.getLast? = some '"' then hexBytes rest.dropLast else none
  | _ => none

/-- The optional operand: the word `absent`, or a byte sequence (R57). -/
def optionalToken (t : List Char) : Option (Option (List Byte)) :=
  if t = "absent".toList then some none else (bytesToken t).map some

/-- A decimal number; for a bit index it must fit the operand field (R46, R57). -/
def indexToken (t : List Char) : Option Nat :=
  match t, digitsValue 10 decDigit t with
  | _ :: _, some n => if n < 2 ^ Config.argBits then some n else none
  | _, _ => none

/-- `0x` and exactly `n` hexadecimal digits (R57). -/
def hexToken (n : Nat) : List Char → Option Nat
  | '0' :: 'x' :: ds => if ds.length = n then digitsValue 16 hexDigit ds else none
  | _ => none

/-- A byte of U32BE, `0x` and two hex digits (R57). -/
def byteToken (t : List Char) : Option Byte := (hexToken 2 t).map (BitVec.ofNat 8)

/-- The words of PACK, each `0x` and sixteen hex digits (R57). -/
def wordTokens : List (List Char) → Option (List Word)
  | [] => some []
  | t :: ts =>
    match hexToken 16 t, wordTokens ts with
    | some n, some ws => some (BitVec.ofNat 64 n :: ws)
    | _, _ => none

/-- The tokens of a line: maximal runs of characters other than a space (R57). -/
def tokens (line : List Char) : List (List Char) :=
  let push := fun (t : List Char) (ts : List (List Char)) => if t = [] then ts else t :: ts
  let r := line.foldr (fun c (acc : List Char × List (List Char)) =>
    if c = ' ' then ([], push acc.1 acc.2) else (c :: acc.1, acc.2)) ([], [])
  push r.1 r.2

/-- The spellings of the opcodes: the mnemonics of R43, then the aliases of R58. -/
def spellings : List (String × Nat) :=
  [("CLEAR", 0x01), ("LOAD", 0x02), ("STORE", 0x03), ("INSERT", 0x04), ("CONTAINS", 0x05), ("BITPOS", 0x06),
   ("BVSET", 0x10), ("BVGET", 0x11), ("BVPOP", 0x12), ("POPCNT", 0x20), ("U32BE", 0x21), ("PACK", 0x22),
   ("UNPACK", 0x23)] ++
  [("BV.NEW", 0x01), ("BF.NEW", 0x01), ("BV.FROMBYTES", 0x02), ("BF.FROMBYTES", 0x02), ("BV.TOBYTES", 0x03),
   ("BF.TOBYTES", 0x03), ("BF.INSERT", 0x04), ("BF.CONTAINS", 0x05), ("BV.SET", 0x10), ("BV.GET", 0x11),
   ("BC.POPCOUNT", 0x20), ("BC.U32FROMBYTES", 0x21), ("BC.LONGSTOBYTES", 0x22), ("BC.BYTESTOLONGS", 0x23)]

/-- The opcode a word spells (R57, R58). -/
def opcodeOfSpelling (t : List Char) : Option Nat :=
  (spellings.find? fun p => p.1.toList = t).map Prod.snd

/-- One operand, read by `read` and given to `mk`; any other number of operands is refused. -/
def oneOperand {α : Type} (read : List Char → Option α) (mk : α → Instr) : List (List Char) → Option Instr
  | [t] => (read t).map mk
  | _ => none

/-- No operand. -/
def noOperand (i : Instr) : List (List Char) → Option Instr
  | [] => some i
  | _ => none

/-- A digest operand: a byte sequence of exactly 32 bytes (R43, R57). -/
def digestToken (t : List Char) : Option Digest :=
  match bytesToken t with
  | some bs => if h : bs.length = 32 then some ⟨bs.toArray, h⟩ else none
  | none => none

/-- The operands of U32BE: four bytes (R57). -/
def quadOperands : List (List Char) → Option Instr
  | [t0, t1, t2, t3] =>
    match byteToken t0, byteToken t1, byteToken t2, byteToken t3 with
    | some b0, some b1, some b2, some b3 => some (.u32be b0 b1 b2 b3)
    | _, _, _, _ => none
  | _ => none

/-- The command of an opcode and its operand tokens (R57). -/
def assembleOperands (op : Nat) (args : List (List Char)) : Option Instr :=
  match op with
  | 0x01 => noOperand .clear args
  | 0x02 => oneOperand bytesToken .load args
  | 0x03 => noOperand .store args
  | 0x04 => oneOperand optionalToken .insert args
  | 0x05 => oneOperand optionalToken .contains args
  | 0x06 => oneOperand digestToken .bitpos args
  | 0x10 => oneOperand indexToken .bvset args
  | 0x11 => oneOperand indexToken .bvget args
  | 0x12 => noOperand .bvpop args
  | 0x20 => oneOperand bytesToken .popcnt args
  | 0x21 => quadOperands args
  | 0x22 => (wordTokens args).map .pack
  | 0x23 => oneOperand bytesToken .unpack args
  | _ => none

/-- The command that a line of text spells; text after `#` is a comment (R57). A line that spells none gives `none`. -/
def assembleLine (line : List Char) : Option Instr :=
  match tokens (line.takeWhile (· ≠ '#')) with
  | [] => none
  | t :: args => (opcodeOfSpelling t).bind fun op => assembleOperands op args

/-! ### Writing operands -/

/-- The `n` low hexadecimal digits of `v`, most significant first (R57). -/
def hexText : Nat → Nat → List Char
  | 0, _ => []
  | n + 1, v => Nat.digitChar (v / 16 ^ n % 16) :: hexText n v

/-- A number in decimal without leading zeros, for numbers of at most `n` digits (R57). -/
def decimalText : Nat → Nat → List Char
  | 0, _ => []
  | n + 1, v => if v < 10 then [Nat.digitChar v] else decimalText n (v / 10) ++ [Nat.digitChar (v % 10)]

/-- A byte sequence, `x"` hex digits `"` (R57). -/
def bytesText (bs : List Byte) : List Char := 'x' :: '"' :: (bs.flatMap (hexText 2 ·.toNat) ++ ['"'])

/-- An optional operand (R57). -/
def optionalText : Option (List Byte) → List Char
  | none => "absent".toList
  | some data => bytesText data

/-- A number as `0x` and `n` hex digits (R57). -/
def hexNumberText (n v : Nat) : List Char := '0' :: 'x' :: hexText n v

/-- The operands of a command as R57 writes them, separated by one space. -/
def operandText : Instr → List Char
  | .clear => []
  | .load buf => bytesText buf
  | .store => []
  | .insert d => optionalText d
  | .contains d => optionalText d
  | .bitpos dg => bytesText dg.toList
  | .bvset idx => decimalText 8 idx
  | .bvget idx => decimalText 8 idx
  | .bvpop => []
  | .popcnt buf => bytesText buf
  | .u32be b0 b1 b2 b3 => [' '].intercalate ([b0, b1, b2, b3].map (hexNumberText 2 ·.toNat))
  | .pack ws => [' '].intercalate (ws.map (hexNumberText 16 ·.toNat))
  | .unpack buf => bytesText buf

end Sys2Proof.Machine
end

