-- ==== Sys2Proof/Safety.lean ====
section
/-! DEFINITION. The words claims are stated in: what the next step does to the filter's lifetime
(spec/10_state.md R23), runs of engine steps and host events, the abstract level of the command set (spec/30_encoding.md
R43), and the shape of a legal response (R50, R51). -/

namespace Sys2Proof

/-- The digest requests a command makes: its data for INSERT and CONTAINS with present data, else none (R41, R56). -/
def Instr.digestRequests : Instr → List (List Byte)
  | .insert (some data) | .contains (some data) => [data]
  | .insert none | .contains none => []
  | .clear | .load _ | .store | .bitpos _ | .bvset _ | .bvget _ | .bvpop | .popcnt _ | .u32be _ _ _ _ | .pack _
  | .unpack _ => []

/-- A command that begins a new filter lifetime: `CLEAR`, and `LOAD` where it succeeds (R23; D2). -/
def Instr.endsLifetime : Instr → Bool
  | .clear => true
  | .load buf => buf.length = 256
  | .store | .insert _ | .contains _ | .bitpos _ | .bvset _ | .bvget _ | .bvpop | .popcnt _ | .u32be _ _ _ _
  | .pack _ | .unpack _ => false

/-- The commands whose result depends on `BV` (the column "reads" of spec/20_memory.md R30). -/
def Instr.readsBV : Instr → Bool
  | .store | .contains _ | .bvget _ | .bvpop => true
  | .clear | .load _ | .insert _ | .bvset _ | .bitpos _ | .popcnt _ | .u32be _ _ _ _ | .pack _ | .unpack _ => false

/-- The commands that may change `BV` (the column "writes" of R30). -/
def Instr.writesBV : Instr → Bool
  | .clear | .load _ | .insert _ | .bvset _ => true
  | .store | .contains _ | .bvget _ | .bvpop | .bitpos _ | .popcnt _ | .u32be _ _ _ _ | .pack _ | .unpack _ => false

end Sys2Proof

namespace Sys2Proof.Machine

/-- The abstract level of R43: typed command in, next filter and typed result or error out, for any hash. No port, no
frame, no byte order. -/
def abstractConclusion (hash : List Byte → Digest) (v : BV) : Instr → Except ErrorKind (BV × Result)
  | .clear => .ok (emptyBV, .none)
  | .load buf => (bvFromBytes buf).map fun v' => (v', .none)
  | .store => .ok (v, .bytes (bvToBytes v))
  | .insert d => .ok (bfInsert hash v d, .none)
  | .contains d => .ok (v, .bool (bfContains hash v d))
  | .bitpos dg =>
    .ok (v, .positions (bfPos dg[0] dg[1]) (bfPos dg[2] dg[3]) (bfPos dg[4] dg[5]))
  | .bvset idx => (bvSet v idx).map fun v' => (v', .none)
  | .bvget idx => (bvGet v idx).map fun b => (v, .bool b)
  | .bvpop => .ok (v, .count (bcPopcount (bvToBytes v)))
  | .popcnt buf => .ok (v, .count (bcPopcount buf))
  | .u32be b0 b1 b2 b3 => .ok (v, .u32 (bcU32FromBytes b0.toNat b1.toNat b2.toNat b3.toNat))
  | .pack ws => .ok (v, .bytes (bcLongsToBytes ws))
  | .unpack buf => (bcBytesToLongs buf).map fun ws => (v, .words ws)

/-- One command at the abstract level: `ok(result)` with the new filter, or `error(kind)` with the old one (R43, R110). -/
def abstractCommand (hash : List Byte → Digest) (v : BV) (i : Instr) : BV × Response :=
  match abstractConclusion hash v i with
  | .ok (v', r) => (v', .ok r)
  | .error k => (v, .error k)

/-- One frame at the abstract level: its command, or `IllegalCommand` with the filter as it was (R53). -/
def abstractFrame (hash : List Byte → Digest) (v : BV) (f : Frame) : BV × Response :=
  match decode f with
  | .command i => abstractCommand hash v i
  | .illegal _ => (v, .error .illegalCommand)

/-- Frames one after another at the abstract level: the last filter, and the responses in order (R35). -/
def abstractRun (hash : List Byte → Digest) : BV → List Frame → BV × List Response
  | v, [] => (v, [])
  | v, f :: fs =>
    let r := abstractFrame hash v f
    let rest := abstractRun hash r.1 fs
    (rest.1, r.2 :: rest.2)

/-- The digest requests a frame causes: those of its command, none if it is illegal (R41, R53). -/
def frameDigestRequests (f : Frame) : List (List Byte) :=
  match decode f with
  | .command i => i.digestRequests
  | .illegal _ => []

/-- The command that the next step takes from the command port, if it takes one. -/
def State.nextCommand (s : State) : Option Instr :=
  match s.digestWait, s.cmdPort with
  | none, f :: _ =>
    match decode f with
    | .command i => some i
    | .illegal _ => none
  | _, _ => none

/-- `Lifetime s t`: a run leads from `s` to `t` within one filter lifetime (R23): steps of the engine that take no
`CLEAR` and no successful `LOAD`, and host events other than a reset. -/
inductive Lifetime (s : State) : State → Prop where
  | here : Lifetime s s
  | engine {t u : State} : Lifetime s t → (∀ i, t.nextCommand = some i → i.endsLifetime = false) →
      step t = .next u → Lifetime s u
  | host {t : State} (e : HostEvent) : Lifetime s t → e ≠ .reset → Lifetime s (t.applyHost e)

/-- A response frame the engine may send (R50, R51): it starts with the status of OK, `InvalidLength`,
`IndexOutOfRange` or `IllegalCommand`, and after an error nothing follows. -/
def legalResponse (r : Frame) : Bool :=
  match r with
  | [] => false
  | st :: rest => st = 0x00 || ((st = 0x02 || st = 0x03 || st = 0xFF) && rest = [])

/-- Vector bit `i` is one of the bits a digest stands for, said directly from the digest's first six bytes (R72, R73):
`2047 - (h mod 2048)` for the pairs at offsets 0, 2, 4. -/
def DigestBit (dg : Digest) (i : BitIndex) : Prop :=
  i.val = 2047 - (dg[0].toNat * 256 + dg[1].toNat) % 2048 ∨
  i.val = 2047 - (dg[2].toNat * 256 + dg[3].toNat) % 2048 ∨
  i.val = 2047 - (dg[4].toNat * 256 + dg[5].toNat) % 2048

/-- The number of indices `i` with `bit(i) = 1` (spec/42_bytecodec.md R95). -/
def bitCount (v : BV) : Nat := (Finset.univ.filter fun i : BitIndex => bitAt v i = true).card

/-- The invariant of the ports: every response emitted is legal; every digest request fits a payload (R55); a command
that waits for its digest has sent its data as the latest request (R56). -/
def PortsInv (s : State) : Prop :=
  (∀ r ∈ s.rspPort, legalResponse r = true) ∧ (∀ d ∈ s.digPort, d.length ≤ Config.maxPayload) ∧
  (∀ w, s.digestWait = some w → s.digPort.getLast? = some w.data)

end Sys2Proof.Machine
end

