-- ==== Sys2Proof/Certificates/Slice0/Obligations.lean ====
section
/-! DEFINITION. The statements about the engine. Each names the rule of spec/ it formalises; a statement about the ports
speaks of the model's port fields (log entries 3 to 6), and a digest reply is a premise where one is needed (U6). -/

open Sys2Proof Sys2Proof.Machine

/-! ### Frames -/

/-- Decoding the frame of a well-formed command gives the command back, for every `MAX_PAYLOAD` (R44 to R48). -/
def Obligations.DecodeOfEncodeIsTheCommand : Prop :=
  ∀ (m : Nat) (i : Instr), i.wfWith m = true → decodeWith m (encode i) = .command i

/-- A frame that decodes to a command is that command's only frame, and the command is well formed. -/
def Obligations.EncodeOfDecodeIsTheFrame : Prop :=
  ∀ (m : Nat) (f : Frame) (i : Instr), decodeWith m f = .command i → encode i = f ∧ i.wfWith m = true

/-- R47: a frame selects a command when its header matches the row under the mask and the payload condition holds;
the fields are `A = H[0]` and `idx = H[23:0]`; what no row selects is illegal. -/
def Obligations.DecoderFollowsOpcodeMap : Prop :=
  ∀ (m : Nat) (f : Frame),
    (∀ r ∈ opcodeTable, (∃ i, decodeWith m f = .command i ∧ i.mnemonic = r.mnemonic) ↔
      4 ≤ f.length ∧ (payloadOf f).length ≤ m ∧ r.selects f = true) ∧
    ((∀ r ∈ opcodeTable, r.selects f = false) → ∃ x, decodeWith m f = .illegal x) ∧
    (∀ i, decodeWith m f = .command i → ∃ r ∈ opcodeTable, r.mnemonic = i.mnemonic) ∧
    (∀ d, decodeWith m f = .command (.insert d) ∨ decodeWith m f = .command (.contains d) →
      (d = none ↔ slice (headerOf f) 0 0 = 1)) ∧
    (∀ idx, decodeWith m f = .command (.bvset idx) ∨ decodeWith m f = .command (.bvget idx) →
      idx = slice (headerOf f) 23 0)

/-- R53: the frames that are illegal, and what such a frame is answered: status `IllegalCommand`, nothing else. -/
def Obligations.IllegalFramesAnsweredIllegalCommand : Prop :=
  (∀ (m : Nat) (f : Frame), (∃ x, decodeWith m f = .illegal x) ↔
    f.length < 4 ∨ m < (payloadOf f).length ∨
    slice (headerOf f) 31 24 ∉
      [0x01, 0x02, 0x03, 0x04, 0x05, 0x06, 0x10, 0x11, 0x12, 0x20, 0x21, 0x22, 0x23] ∨
    (slice (headerOf f) 31 24 ∈ [0x01, 0x02, 0x03, 0x06, 0x12, 0x20, 0x21, 0x22, 0x23] ∧
      slice (headerOf f) 23 0 ≠ 0) ∨
    (slice (headerOf f) 31 24 ∈ [0x04, 0x05] ∧ slice (headerOf f) 23 1 ≠ 0) ∨
    (slice (headerOf f) 31 24 ∈ [0x01, 0x03, 0x10, 0x11, 0x12] ∧ payloadOf f ≠ []) ∨
    (slice (headerOf f) 31 24 ∈ [0x04, 0x05] ∧ slice (headerOf f) 0 0 = 1 ∧ payloadOf f ≠ []) ∨
    (slice (headerOf f) 31 24 = 0x06 ∧ (payloadOf f).length ≠ 32) ∨
    (slice (headerOf f) 31 24 = 0x21 ∧ (payloadOf f).length ≠ 4) ∨
    (slice (headerOf f) 31 24 = 0x22 ∧ (payloadOf f).length % 8 ≠ 0)) ∧
  (∀ (s : State) (f : Frame) (rest : List Frame) (x : IllegalFrame), s.digestWait = none →
    s.cmdPort = f :: rest → decode f = .illegal x →
    step s = .next { s with cmdPort := rest, rspPort := s.rspPort ++ [[0xFF]] })

/-- A few frames written out from R45 and R47 decode to the commands they stand for. -/
def Obligations.FramesOfTheSpecDecode : Prop :=
  decode [0x01, 0x00, 0x00, 0x00] = .command .clear ∧
  decode [0x04, 0x00, 0x00, 0x00] = .command (.insert (some [])) ∧
  decode [0x04, 0x00, 0x00, 0x01] = .command (.insert none) ∧
  decode [0x05, 0x00, 0x00, 0x00, 0x61] = .command (.contains (some [0x61])) ∧
  decode [0x10, 0xFF, 0xFF, 0xFF] = .command (.bvset 16777215) ∧
  decode [0x11, 0x00, 0x08, 0x00] = .command (.bvget 2048) ∧
  decode [0x21, 0x00, 0x00, 0x00, 0x12, 0x34, 0x56, 0x78] = .command (.u32be 0x12 0x34 0x56 0x78) ∧
  decode [0x22, 0x00, 0x00, 0x00, 0x01, 0x02, 0x03, 0x04, 0x05, 0x06, 0x07, 0x08] =
    .command (.pack [0x0102030405060708])

/-- The response frame of a command loses nothing of its response: two well-formed commands of one mnemonic, with any
operands and at any two filters, that are answered by the same frame are answered by the same result or error (R50 to
R52). -/
def Obligations.ResponseFrameDeterminesResponse : Prop :=
  ∀ (hash : List Byte → Digest) (i j : Instr) (v w : BV), i.wf = true → j.wf = true → i.mnemonic = j.mnemonic →
    responseFrame (abstractCommand hash v i).2 = responseFrame (abstractCommand hash w j).2 →
    (abstractCommand hash v i).2 = (abstractCommand hash w j).2

/-- R58: each alias is accepted for exactly one command. A line that begins with an alias spells what the line with that
command's mnemonic in its place spells, whatever follows; what it spells, if anything, is that command; and with the
operands of any such command written as R57 says, it spells that command with those operands. -/
def Obligations.AliasesSpellOneCommand : Prop :=
  ∀ p ∈ [("BV.NEW", "CLEAR"), ("BF.NEW", "CLEAR"), ("BV.FROMBYTES", "LOAD"), ("BF.FROMBYTES", "LOAD"),
      ("BV.TOBYTES", "STORE"), ("BF.TOBYTES", "STORE"), ("BF.INSERT", "INSERT"), ("BF.CONTAINS", "CONTAINS"),
      ("BV.SET", "BVSET"), ("BV.GET", "BVGET"), ("BC.POPCOUNT", "POPCNT"), ("BC.U32FROMBYTES", "U32BE"),
      ("BC.LONGSTOBYTES", "PACK"), ("BC.BYTESTOLONGS", "UNPACK")],
    assembleLine p.1.toList = assembleLine p.2.toList ∧
    (∀ rest : List Char, assembleLine (p.1.toList ++ ' ' :: rest) = assembleLine (p.2.toList ++ ' ' :: rest)) ∧
    (∀ i : Instr, assembleLine p.1.toList = some i → i.mnemonic = p.2) ∧
    (∀ (rest : List Char) (i : Instr), assembleLine (p.1.toList ++ ' ' :: rest) = some i → i.mnemonic = p.2) ∧
    (∀ i : Instr, i.mnemonic = p.2 → i.wf = true → assembleLine (p.1.toList ++ ' ' :: operandText i) = some i) ∧
    (p.2 = "CLEAR" → assembleLine p.1.toList = some .clear) ∧
    (p.2 = "STORE" → assembleLine p.1.toList = some .store)

/-! ### The step -/

/-- A step takes the oldest frame; where it decodes to a command, the step is that command at the state without the
frame (R35, R48). -/
def Obligations.StepRunsTheDecodedCommand : Prop :=
  ∀ (s : State) (f : Frame) (rest : List Frame) (i : Instr), s.digestWait = none → s.cmdPort = f :: rest →
    decode f = .command i → step s = exec i { s with cmdPort := rest }

/-- With no frame and no command in progress the engine holds its state (the model's choice, log entry 17). -/
def Obligations.IdleEngineHoldsItsState : Prop :=
  ∀ s : State, s.digestWait = none → s.cmdPort = [] → step s = .next s

/-- A command whose digest reply is missing stays in progress, no step follows, and a reply that comes late lets it end
as it would have ended at once (R122, U6; the model's way of holding it is log entry 5). -/
def Obligations.MissingDigestReplyHoldsTheCommand : Prop :=
  ∀ (s : State) (data : List Byte) (i : Instr), s.digestWait = none → s.digestReplies = false →
    i = .insert (some data) ∨ i = .contains (some data) →
    ∃ t, exec i s = .next t ∧ t.bv = s.bv ∧ t.rspPort = s.rspPort ∧ t.cmdPort = s.cmdPort ∧
      t.digPort = s.digPort ++ [data] ∧ step t = .fault .digestNoReply ∧
      step (t.applyHost (.digestPort true)) = exec i { s with digestReplies := true }

/-- A step answers a next state in every state but one in which a command waits for a digest that does not come; it
never refuses (R124, U6). Two of its clauses are the model's choices: that a step of an idle engine answers a next state
(log entry 17), and that a command whose digest is missing is held and the step after its acceptance is the stop
`digestNoReply` (log entry 5). -/
def Obligations.StepStopsOnlyWithoutDigestReply : Prop :=
  ∀ s : State, (∃ t, step s = .next t ∧ t.digestReplies = s.digestReplies) ∨
    (s.digestWait ≠ none ∧ s.digestReplies = false ∧ step s = .fault .digestNoReply)

/-- R49: a command, legal or not, is answered by exactly one response frame, and while its digest is missing no further
frame is accepted and nothing is emitted. -/
def Obligations.OneResponsePerCommand : Prop :=
  (∀ (s : State) (f : Frame) (rest : List Frame), s.digestWait = none → s.digestReplies = true →
    s.cmdPort = f :: rest →
    ∃ t r, step s = .next t ∧ t.cmdPort = rest ∧ t.rspPort = s.rspPort ++ [r] ∧ t.digestWait = none) ∧
  (∀ (s t : State) (w : DigestWait), s.digestWait = some w → step s = .next t →
    t.cmdPort = s.cmdPort ∧ t.digestWait = none ∧ ∃ r, t.rspPort = s.rspPort ++ [r]) ∧
  (∀ (s t : State) (i : Instr), s.digestWait = none → exec i s = .next t → t.digestWait ≠ none →
    t.rspPort = s.rspPort)

/-- R35: the engine takes the frames at its port one after another; each sees the filter the one before left, and the
responses are emitted in the same order, one a frame: what a run does is what the abstract commands of R43 do, on the
wire. -/
def Obligations.RunRefinesAbstractCommands : Prop :=
  ∀ (fs : List Frame) (s : State) (rest : List Frame), s.digestWait = none → s.digestReplies = true →
    s.cmdPort = fs ++ rest →
    (abstractRun Config.keccak256 s.bv fs).2.length = fs.length ∧
    Sys2Proof.core.run fs.length s = .next
      { s with
        bv := (abstractRun Config.keccak256 s.bv fs).1
        cmdPort := rest
        rspPort := s.rspPort ++ (abstractRun Config.keccak256 s.bv fs).2.map responseFrame
        digPort := s.digPort ++ fs.flatMap frameDigestRequests }

/-- R51: the status of each response. `InvalidLength` is sent by LOAD and UNPACK, exactly for the lengths they refuse;
`IndexOutOfRange` by BVSET and BVGET, exactly for the indices they refuse; otherwise a command sends `OK`;
`IllegalCommand` is sent by the decoder; nothing else is ever sent. -/
def Obligations.StatusBytesAndTheirSenders : Prop :=
  (statusOk = 0x00 ∧ statusOf .invalidSize = 0x01 ∧ statusOf .invalidLength = 0x02 ∧
    statusOf .indexOutOfRange = 0x03 ∧ statusOf .decodeError = 0x04 ∧ statusOf .illegalCommand = 0xFF) ∧
  (∀ (i : Instr) (s t : State) (st : Byte) (body : List Byte), exec i s = .next t →
    t.rspPort = s.rspPort ++ [st :: body] →
    (st = 0x02 ↔ (∃ buf, i = .load buf ∧ buf.length ≠ 256) ∨ ∃ buf, i = .unpack buf ∧ buf.length % 8 ≠ 0) ∧
    (st = 0x03 ↔ ∃ idx, (i = .bvset idx ∨ i = .bvget idx) ∧ 2048 ≤ idx) ∧
    (st = 0x00 ∨ st = 0x02 ∨ st = 0x03)) ∧
  (∀ (s t : State) (st : Byte) (body : List Byte), step s = .next t → t.rspPort = s.rspPort ++ [st :: body] →
    st = 0x00 ∨ st = 0x02 ∨ st = 0x03 ∨
      (st = 0xFF ∧ ∃ f rest x, s.cmdPort = f :: rest ∧ decode f = .illegal x))

/-- R110: a command that ends in an error leaves `BV` as it was, makes no digest transaction, answers with the status
byte alone and changes nothing else. -/
def Obligations.ErrorChangesNothing : Prop :=
  ∀ (s t : State) (f : Frame) (rest : List Frame) (st : Byte) (body : List Byte), s.digestWait = none →
    s.cmdPort = f :: rest → step s = .next t → t.rspPort = s.rspPort ++ [st :: body] → st ≠ 0x00 →
    body = [] ∧ t = { s with cmdPort := rest, rspPort := s.rspPort ++ [[st]] }

/-- R41: INSERT and CONTAINS with present data make exactly one digest transaction, whose request is the data and no
part of `BV` and goes out before `BV` is written; with absent data none; every other command none. -/
def Obligations.DigestTransactionsOfEachCommand : Prop :=
  (∀ (data : List Byte) (s t : State), exec (.insert (some data)) s = .next t →
    t.digPort = s.digPort ++ [data]) ∧
  (∀ (data : List Byte) (s t : State), exec (.contains (some data)) s = .next t →
    t.digPort = s.digPort ++ [data]) ∧
  (∀ (i : Instr) (s t : State), (∀ data, i ≠ .insert (some data) ∧ i ≠ .contains (some data)) →
    exec i s = .next t → t.digPort = s.digPort) ∧
  (∀ (i : Instr) (s t : State), exec i s = .next t → t.digestWait ≠ s.digestWait → t.bv = s.bv) ∧
  (∀ (s t : State) (w : DigestWait), s.digestWait = some w → step s = .next t → t.digPort = s.digPort)

/-- The frame of every command (the access table of R30): only `BV`, the response port, the digest port and the digest
wait can change; a bit of `BV` changes only by CLEAR, by LOAD of 256 bytes, by BVSET of that bit, or by INSERT of data
whose digest has that bit, so not by a failed LOAD, an out-of-range BVSET or INSERT of absent. The result of a command
that does not read `BV` is the same for every `BV`; that of BVGET depends on its one bit only, that of CONTAINS on the
bits of its digest only. -/
def Obligations.CommandsTouchWhatTheAccessTableSays : Prop :=
  (∀ (i : Instr) (s t : State), exec i s = .next t →
    t = { s with bv := t.bv, rspPort := t.rspPort, digPort := t.digPort, digestWait := t.digestWait } ∧
    (i.writesBV = false → t.bv = s.bv)) ∧
  (∀ (i : Instr) (s t : State) (j : BitIndex), exec i s = .next t → bitAt t.bv j ≠ bitAt s.bv j →
    i = .clear ∨ (∃ buf, i = .load buf ∧ buf.length = 256) ∨ i = .bvset j.val ∨
      ∃ data, i = .insert (some data) ∧ DigestBit (Config.keccak256 data) j) ∧
  (∀ (i : Instr) (s t u : State) (v : BV), i.readsBV = false → exec i s = .next t →
    exec i { s with bv := v } = .next u → t.rspPort = u.rspPort ∧ t.digPort = u.digPort) ∧
  (∀ (idx : Nat) (h : idx < 2048) (s t u : State) (v : BV), bitAt s.bv ⟨idx, h⟩ = bitAt v ⟨idx, h⟩ →
    exec (.bvget idx) s = .next t → exec (.bvget idx) { s with bv := v } = .next u → t.rspPort = u.rspPort) ∧
  (∀ (data : List Byte) (s t u : State) (v : BV),
    (∀ i, DigestBit (Config.keccak256 data) i → bitAt s.bv i = bitAt v i) →
    exec (.contains (some data)) s = .next t → exec (.contains (some data)) { s with bv := v } = .next u →
    t.rspPort = u.rspPort)

/-- R32: a command that does not write leaves `BV` as it was, and repeats its result as long as `BV` is the same; a
write done twice is the write done once; BVSET of a bit that is 1 changes nothing. -/
def Obligations.ReadsRepeatAndWritesAreIdempotent : Prop :=
  (∀ (i : Instr) (s t : State), s.digestReplies = true → i.writesBV = false → exec i s = .next t →
    t.bv = s.bv ∧ ∃ r, t.rspPort = s.rspPort ++ [r] ∧ ∀ u w : State, u.bv = s.bv → u.digestReplies = true →
      exec i u = .next w → w.rspPort = u.rspPort ++ [r]) ∧
  (∀ (i : Instr) (s t u : State), s.digestReplies = true → i.writesBV = true → exec i s = .next t →
    exec i t = .next u → u.bv = t.bv) ∧
  (∀ (idx : Nat) (h : idx < 2048) (s t : State), bitAt s.bv ⟨idx, h⟩ = true → exec (.bvset idx) s = .next t →
    t.bv = s.bv)

/-- Commands that do not write `BV` commute: in either order each gets the same response (R36). -/
def Obligations.ReadOnlyCommandsCommute : Prop :=
  ∀ (i j : Instr) (s : State), s.digestReplies = true → i.writesBV = false → j.writesBV = false →
    ∃ ri rj a b ab ba, exec i s = .next a ∧ exec j a = .next ab ∧ exec j s = .next b ∧ exec i b = .next ba ∧
      ab.bv = s.bv ∧ ba.bv = s.bv ∧
      ab.rspPort = s.rspPort ++ [ri, rj] ∧ ba.rspPort = s.rspPort ++ [rj, ri]

/-! ### The filter commands -/

/-- R75: CLEAR empties the filter, answers OK alone and touches nothing else; besides LOAD it is the only command that
can turn a 1 bit into 0. -/
def Obligations.ClearEmptiesTheFilter : Prop :=
  encode .clear = [0x01, 0x00, 0x00, 0x00] ∧
  (∀ s : State, ∃ v : BV,
    exec .clear s = .next { s with bv := v, rspPort := s.rspPort ++ [[0x00]] } ∧
    (∀ i, bitAt v i = false) ∧ (∀ k (h : k < 32), v[k] = 0) ∧ ((∀ i, bitAt s.bv i = false) → v = s.bv)) ∧
  (∀ (i : Instr) (s t : State) (j : BitIndex), exec i s = .next t → bitAt s.bv j = true → bitAt t.bv j = false →
    i = .clear ∨ ∃ buf, i = .load buf)

/-- R76: LOAD of 256 bytes makes byte `j` of the filter `buf[j]`; LOAD of any other length answers `InvalidLength` and
changes nothing. -/
def Obligations.LoadReplacesTheFilter : Prop :=
  ∀ (buf : List Byte) (s : State),
    encode (.load buf) = [0x02, 0x00, 0x00, 0x00] ++ buf ∧
    (buf.length = 256 → ∃ v : BV,
      exec (.load buf) s = .next { s with bv := v, rspPort := s.rspPort ++ [[0x00]] } ∧
      (∀ j : Fin 256, buf[j.val]? = some (byteAt v j)) ∧
      (∀ b : Vector Byte 256, b.toList = buf → v = memWrite s.bv 0 256 b)) ∧
    (buf.length ≠ 256 → exec (.load buf) s = .next { s with rspPort := s.rspPort ++ [[0x02]] }) ∧
    (buf = List.replicate 256 0x00 → exec (.load buf) s = exec .clear s) ∧
    (buf = List.replicate 256 0xFF → ∃ t, exec (.load buf) s = .next t ∧ (∀ i, bitAt t.bv i = true) ∧
      ∀ (data : List Byte) (u : State), s.digestReplies = true → exec (.contains (some data)) t = .next u →
        u.rspPort = t.rspPort ++ [[0x00, 0x01]])

/-- R77: STORE answers the 256 bytes of the filter in order and changes nothing. -/
def Obligations.StoreReadsTheFilter : Prop :=
  encode .store = [0x03, 0x00, 0x00, 0x00] ∧
  (∀ s : State, ∃ bs : List Byte,
    exec .store s = .next { s with rspPort := s.rspPort ++ [0x00 :: bs] } ∧
    bs.length = 256 ∧ (∀ j : Fin 256, bs[j.val]? = some (byteAt s.bv j)) ∧
    bs = memRead s.bv 0 256 (by decide)) ∧
  (∀ s : State, (∀ i, bitAt s.bv i = false) →
    exec .store s = .next { s with rspPort := s.rspPort ++ [0x00 :: List.replicate 256 0x00] })

/-- R78: INSERT of present data sends the data as digest request, sets exactly the bits of its digest and answers OK;
INSERT of absent does nothing but answer OK. -/
def Obligations.InsertSetsTheDigestBits : Prop :=
  encode (.insert none) = [0x04, 0x00, 0x00, 0x01] ∧
  (∀ s : State, exec (.insert none) s = .next { s with rspPort := s.rspPort ++ [[0x00]] }) ∧
  (∀ (data : List Byte), encode (.insert (some data)) = [0x04, 0x00, 0x00, 0x00] ++ data) ∧
  (∀ (data : List Byte) (s : State), s.digestReplies = true → ∃ v : BV,
    exec (.insert (some data)) s =
      .next { s with bv := v, rspPort := s.rspPort ++ [[0x00]], digPort := s.digPort ++ [data] } ∧
    ∀ i, bitAt v i = true ↔ bitAt s.bv i = true ∨ DigestBit (Config.keccak256 data) i)

/-- R79: CONTAINS of present data sends the data as digest request and answers whether all bits of its digest are set;
CONTAINS of absent answers false in every state. -/
def Obligations.ContainsTestsTheDigestBits : Prop :=
  encode (.contains none) = [0x05, 0x00, 0x00, 0x01] ∧
  (∀ s : State, exec (.contains none) s = .next { s with rspPort := s.rspPort ++ [[0x00, 0x00]] }) ∧
  (∀ (data : List Byte), encode (.contains (some data)) = [0x05, 0x00, 0x00, 0x00] ++ data) ∧
  (∀ (data : List Byte) (s : State), s.digestReplies = true → ∃ b : Bool,
    exec (.contains (some data)) s =
      .next { s with rspPort := s.rspPort ++ [[0x00, if b then 0x01 else 0x00]], digPort := s.digPort ++ [data] } ∧
    (b = true ↔ ∀ i, DigestBit (Config.keccak256 data) i → bitAt s.bv i = true))

/-- R80: BITPOS answers the three positions of the digest, 16 bits each, most significant byte first, in the order of
the offsets 0, 2, 4; it touches nothing else and needs no digest reply. -/
def Obligations.BitposAnswersThePositions : Prop :=
  ∀ (dg : Digest) (s : State), ∃ p0 p1 p2 : Nat,
    encode (.bitpos dg) = [0x06, 0x00, 0x00, 0x00] ++ dg.toList ∧
    p0 = 2047 - (dg[0].toNat * 256 + dg[1].toNat) % 2048 ∧
    p1 = 2047 - (dg[2].toNat * 256 + dg[3].toNat) % 2048 ∧
    p2 = 2047 - (dg[4].toNat * 256 + dg[5].toNat) % 2048 ∧
    exec (.bitpos dg) s = .next
      { s with rspPort := s.rspPort ++ [[0x00, BitVec.ofNat 8 (p0 / 256), BitVec.ofNat 8 (p0 % 256),
        BitVec.ofNat 8 (p1 / 256), BitVec.ofNat 8 (p1 % 256), BitVec.ofNat 8 (p2 / 256),
        BitVec.ofNat 8 (p2 % 256)]] }

/-! ### The bit vector commands and functions -/

/-- R69: BVSET sets the one bit and answers OK, or answers `IndexOutOfRange` and changes nothing. -/
def Obligations.BvsetSetsOneBit : Prop :=
  ∀ (idx : Nat) (s : State),
    (idx < 2 ^ 24 → encode (.bvset idx) =
      [0x10, BitVec.ofNat 8 (idx / 65536), BitVec.ofNat 8 (idx / 256), BitVec.ofNat 8 idx]) ∧
    (idx < 2048 → ∃ v : BV,
      exec (.bvset idx) s = .next { s with bv := v, rspPort := s.rspPort ++ [[0x00]] } ∧
      ∀ j : BitIndex, bitAt v j = (decide (j.val = idx) || bitAt s.bv j)) ∧
    (2048 ≤ idx → exec (.bvset idx) s = .next { s with rspPort := s.rspPort ++ [[0x03]] })

/-- R70: BVGET answers the one bit, or `IndexOutOfRange`; it changes nothing. -/
def Obligations.BvgetReadsOneBit : Prop :=
  ∀ (idx : Nat) (s : State),
    (idx < 2 ^ 24 → encode (.bvget idx) =
      [0x11, BitVec.ofNat 8 (idx / 65536), BitVec.ofNat 8 (idx / 256), BitVec.ofNat 8 idx]) ∧
    (∀ h : idx < 2048, exec (.bvget idx) s =
      .next { s with rspPort := s.rspPort ++ [[0x00, if bitAt s.bv ⟨idx, h⟩ then 0x01 else 0x00]] }) ∧
    (2048 ≤ idx → exec (.bvget idx) s = .next { s with rspPort := s.rspPort ++ [[0x03]] })

/-- R63: `bv_new` refuses every size that is not a positive multiple of 64, and else gives that many zero words; the
engine's own vector is `bv_new(2048)`. -/
def Obligations.BvNewChecksTheSize : Prop :=
  (∀ n : Int, n ≤ 0 ∨ n % 64 ≠ 0 → bvNew n = .error .invalidSize) ∧
  (∀ k : Nat, 0 < k → bvNew (64 * k) = .ok (List.replicate k 0)) ∧
  bvNew 100 = .error .invalidSize ∧ bvNew 2048 = .ok emptyBV.toList

/-- R64: `bv_fromBytes` refuses every length but 256, and else word `k` is the big-endian number of bytes `8k` to
`8k + 7`. -/
def Obligations.FromBytesAssemblesWords : Prop :=
  ∀ buf : List Byte,
    (buf.length ≠ 256 → bvFromBytes buf = .error .invalidLength) ∧
    (buf.length = 256 → ∃ v : BV, bvFromBytes buf = .ok v ∧
      (∀ j : Fin 256, buf[j.val]? = some (byteAt v j)) ∧
      ∀ k : Fin 32, v[k].toNat =
        buf[8 * k.val]!.toNat * 2 ^ 56 + buf[8 * k.val + 1]!.toNat * 2 ^ 48 + buf[8 * k.val + 2]!.toNat * 2 ^ 40 +
        buf[8 * k.val + 3]!.toNat * 2 ^ 32 + buf[8 * k.val + 4]!.toNat * 2 ^ 24 +
        buf[8 * k.val + 5]!.toNat * 2 ^ 16 + buf[8 * k.val + 6]!.toNat * 2 ^ 8 + buf[8 * k.val + 7]!.toNat)

/-- R66 and R67: `bv_set` and `bv_get` refuse exactly the integers outside `0..2047`; else `bv_set` ORs `2^n` into the
one word and leaves the others, and `bv_get` reads that bit of that word. -/
def Obligations.SetAndGetCheckTheIndex : Prop :=
  ∀ (v : BV) (i : Int),
    (i < 0 ∨ 2048 ≤ i → bvSet v i = .error .indexOutOfRange ∧ bvGet v i = .error .indexOutOfRange) ∧
    (0 ≤ i → i < 2048 →
      (∃ w : BV, bvSet v i = .ok w ∧ ∀ k (hk : k < 32), w[k].toNat =
        if k = i.toNat / 64 then v[k].toNat ||| 2 ^ (63 - i.toNat % 64) else v[k].toNat) ∧
      ∃ hk : i.toNat / 64 < 32, bvGet v i = .ok ((v[i.toNat / 64]'hk).toNat.testBit (63 - i.toNat % 64)))

/-- R68: `bv_toBytes` and `bv_fromBytes` are inverse. -/
def Obligations.SerializedFormRoundTrips : Prop :=
  (∀ b : List Byte, b.length = 256 → ∃ v, bvFromBytes b = .ok v ∧ bvToBytes v = b) ∧
  (∀ v : BV, bvFromBytes (bvToBytes v) = .ok v)

/-- The laws of R71 for setting and getting bits. -/
def Obligations.SetAndGetLaws : Prop :=
  ∀ (v : BV) (i j : Nat), i < 2048 → j < 2048 → ∃ vi vj vii vij vji : BV,
    bvSet v i = .ok vi ∧ bvSet v j = .ok vj ∧ bvSet vi i = .ok vii ∧ bvSet vi j = .ok vij ∧ bvSet vj i = .ok vji ∧
    bvGet vi i = .ok true ∧ (j ≠ i → bvGet vi j = bvGet v j) ∧ vii = vi ∧ vij = vji ∧
    (bvGet v j = .ok true → bvGet vi j = .ok true)

/-- R12 and R13: bit `i` is bit `63 - (i mod 64)` of word `i / 64`; byte `j` is its slice of word `j / 8`; and word `k`
is the big-endian number of its eight bytes. -/
def Obligations.WordBitAndByteViewsAgree : Prop :=
  ∀ v : BV,
    (∀ (i : BitIndex) (h : i.val / 64 < 32),
      bitAt v i = (v[i.val / 64]'h).toNat.testBit (63 - i.val % 64)) ∧
    (∀ (j : Fin 256) (h : j.val / 8 < 32),
      (byteAt v j).toNat = slice (v[j.val / 8]'h).toNat (63 - 8 * (j.val % 8)) (56 - 8 * (j.val % 8))) ∧
    (∀ k : Fin 32, v[k].toNat =
      (byteAt v ⟨8 * k.val, by omega⟩).toNat * 2 ^ 56 + (byteAt v ⟨8 * k.val + 1, by omega⟩).toNat * 2 ^ 48 +
      (byteAt v ⟨8 * k.val + 2, by omega⟩).toNat * 2 ^ 40 + (byteAt v ⟨8 * k.val + 3, by omega⟩).toNat * 2 ^ 32 +
      (byteAt v ⟨8 * k.val + 4, by omega⟩).toNat * 2 ^ 24 + (byteAt v ⟨8 * k.val + 5, by omega⟩).toNat * 2 ^ 16 +
      (byteAt v ⟨8 * k.val + 6, by omega⟩).toNat * 2 ^ 8 + (byteAt v ⟨8 * k.val + 7, by omega⟩).toNat)

/-- Bit `i` is the bit of weight `2^(2047 - i)` of the big integer (R15). -/
def Obligations.BigIntegerViewHasTheBits : Prop :=
  ∀ (v : BV) (i : BitIndex), (bigInteger v).testBit (2047 - i.val) = bitAt v i

/-- A bit set through the bit space is seen through the byte space and the reverse (R28). -/
def Obligations.BitAndByteSpacesShareTheBits : Prop :=
  (∀ (idx : Nat) (s t : State), idx < 2048 → exec (.bvset idx) s = .next t → ∀ j : Fin 256,
    byteAt t.bv j = if j.val = idx / 8 then byteAt s.bv j ||| BitVec.twoPow 8 (7 - idx % 8) else byteAt s.bv j) ∧
  (∀ (buf : List Byte) (idx : Nat) (s t : State), buf.length = 256 → idx < 2048 → exec (.load buf) s = .next t →
    exec (.bvget idx) t = .next
      { t with rspPort := t.rspPort ++ [[0x00, if buf[idx / 8]!.getLsbD (7 - idx % 8) then 0x01 else 0x00]] })

/-- Two filters are equal exactly when STORE answers them alike (R25). -/
def Obligations.FiltersEqualWhenStoredAlike : Prop :=
  ∀ s t : State, s.bv = t.bv ↔ bvToBytes s.bv = bvToBytes t.bv

/-! ### The codec commands and functions -/

/-- R95: BVPOP answers the number of set bits of the filter, as four bytes; it is at most 2048, and 1, 2 or 3 after one
INSERT on the empty filter. -/
def Obligations.BvpopCountsTheFilter : Prop :=
  encode .bvpop = [0x12, 0x00, 0x00, 0x00] ∧
  (∀ s : State, exec .bvpop s = .next { s with rspPort := s.rspPort ++ [0x00 :: beBytes 4 (bitCount s.bv)] } ∧
    bitCount s.bv ≤ 2048) ∧
  (∀ (data : List Byte) (s t : State), s.digestReplies = true → (∀ i, bitAt s.bv i = false) →
    exec (.insert (some data)) s = .next t → 1 ≤ bitCount t.bv ∧ bitCount t.bv ≤ 3)

/-- R94: POPCNT answers the number of set bits of its operand as a 32-bit number that does not wrap, and changes
nothing. -/
def Obligations.PopcntCountsTheOperand : Prop :=
  ∀ (buf : List Byte) (s : State), ∃ n : Nat,
    encode (.popcnt buf) = [0x20, 0x00, 0x00, 0x00] ++ buf ∧
    n = (buf.map fun b => (Finset.univ.filter fun k : Fin 8 => b.getLsbD k.val = true).card).sum ∧
    n ≤ 8 * buf.length ∧
    exec (.popcnt buf) s = .next { s with rspPort := s.rspPort ++ [0x00 :: beBytes 4 n] } ∧
    ((Instr.popcnt buf).wf = true → beNat (beBytes 4 n) = n)

/-- R96: U32BE answers its four bytes in order, which are the 32-bit value; nothing else changes. -/
def Obligations.U32beAnswersItsBytes : Prop :=
  ∀ (b0 b1 b2 b3 : Byte) (s : State),
    encode (.u32be b0 b1 b2 b3) = [0x21, 0x00, 0x00, 0x00, b0, b1, b2, b3] ∧
    exec (.u32be b0 b1 b2 b3) s = .next { s with rspPort := s.rspPort ++ [[0x00, b0, b1, b2, b3]] } ∧
    (bcU32FromBytes b0.toNat b1.toNat b2.toNat b3.toNat).toNat =
      b0.toNat * 2 ^ 24 + b1.toNat * 2 ^ 16 + b2.toNat * 2 ^ 8 + b3.toNat

/-- R97: PACK answers `8n` bytes, byte `8k + m` being `ws[k][63-8m : 56-8m]`; its frame carries the same bytes as
payload. -/
def Obligations.PackAnswersTheBytesOfItsWords : Prop :=
  ∀ (ws : List Word) (s : State), ∃ bs : List Byte,
    encode (.pack ws) = [0x22, 0x00, 0x00, 0x00] ++ bs ∧
    exec (.pack ws) s = .next { s with rspPort := s.rspPort ++ [0x00 :: bs] } ∧
    bs.length = 8 * ws.length ∧
    ∀ (k m : Nat) (hk : k < ws.length), m < 8 →
      bs[8 * k + m]? = some (ws[k].extractLsb' (56 - 8 * m) 8)

/-- R98: UNPACK answers its operand's words, which on the wire are the operand's bytes again, or `InvalidLength` when
the length is not a multiple of 8; nothing else changes. -/
def Obligations.UnpackAnswersTheWordsOfItsBytes : Prop :=
  ∀ (buf : List Byte) (s : State),
    encode (.unpack buf) = [0x23, 0x00, 0x00, 0x00] ++ buf ∧
    (buf.length % 8 = 0 → exec (.unpack buf) s = .next { s with rspPort := s.rspPort ++ [0x00 :: buf] } ∧
      ∃ ws, bcBytesToLongs buf = .ok ws ∧ ws.length = buf.length / 8 ∧ bcLongsToBytes ws = buf) ∧
    (buf.length % 8 ≠ 0 → exec (.unpack buf) s = .next { s with rspPort := s.rspPort ++ [[0x02]] })

/-- `bc_bytesToLongs` and `bc_longsToBytes` are inverse (R93). -/
def Obligations.CodecFunctionsAreInverse : Prop :=
  (∀ ws : List Word, bcBytesToLongs (bcLongsToBytes ws) = .ok ws) ∧
  (∀ b : List Byte, b.length % 8 = 0 → ∃ ws, bcBytesToLongs b = .ok ws ∧ bcLongsToBytes ws = b)

/-- `bc_u32FromBytes` masks any integer to its low 8 bits and assembles the four big-endian, unsigned (R90; that a
negative integer's low 8 bits are its value modulo 256 is the spec's K4, log entry 19). -/
def Obligations.U32FromBytesMasksItsArguments : Prop :=
  (∀ b0 b1 b2 b3 : Int, ((bcU32FromBytes b0 b1 b2 b3).toNat : Int) =
    b0 % 256 * 2 ^ 24 + b1 % 256 * 2 ^ 16 + b2 % 256 * 2 ^ 8 + b3 % 256) ∧
  bcU32FromBytes (-1) (-1) (-1) (-1) = 0xFFFFFFFF ∧ bcU32FromBytes (-128) 0 0 0 = 0x80000000 ∧
  bcU32FromBytes 0x1FF 0 0 0 = 0xFF000000 ∧ bcU32FromBytes 0x12 0x34 0x56 0x78 = 0x12345678

/-- R72: `bf_pos` is `2047 - (h mod 2048)` with `h = 256*d0 + d1`. The last clause is the closed form the spec derives
from it (R74): the complement in 11 bits of the low 11 bits of the pair. -/
def Obligations.BitPositionOfABytePair : Prop :=
  ∀ d0 d1 : Byte,
    (bfH d0 d1).toNat = d0.toNat * 256 + d1.toNat ∧
    (bfPos d0 d1).val = 2048 - 1 - (d0.toNat * 256 + d1.toNat) % 2048 ∧
    (bfPos d0 d1).val = ((d0.toNat &&& 0x07) * 256 + d1.toNat) ^^^ 0x7FF

/-! ### Laws of the filter -/

/-- R23: every command but CLEAR and a LOAD that succeeds keeps every set bit, so set bits stay within a filter
lifetime; CLEAR, LOAD and reset replace `BV` whole, whatever it was. -/
def Obligations.SetBitsStayWithinALifetime : Prop :=
  (∀ (i : Instr) (s t : State), i.endsLifetime = false → exec i s = .next t →
    ∀ j, bitAt s.bv j = true → bitAt t.bv j = true) ∧
  (∀ s t : State, Lifetime s t → ∀ j, bitAt s.bv j = true → bitAt t.bv j = true) ∧
  (∀ (i : Instr) (s : State) (v : BV), i.endsLifetime = true → exec i s = exec i { s with bv := v }) ∧
  (∀ (s : State) (v : BV), s.applyHost .reset = State.applyHost .reset { s with bv := v })

/-- No false negatives (R83): once INSERT of `x` has been answered, CONTAINS of `x` answers true for the rest of the
filter's lifetime, whatever commands and host events come between. -/
def Obligations.InsertedDataIsContained : Prop :=
  ∀ (x : List Byte) (s s1 t : State),
    (s.digestReplies = true ∧ exec (.insert (some x)) s = .next s1) ∨
      (s.digestWait = some (.insert x) ∧ step s = .next s1) →
    Lifetime s1 t → t.digestReplies = true →
    exec (.contains (some x)) t =
      .next { t with rspPort := t.rspPort ++ [[0x00, 0x01]], digPort := t.digPort ++ [x] }

/-- On an empty filter STORE answers 256 zero bytes, BVPOP answers 0 and CONTAINS answers false (R84). -/
def Obligations.EmptyFilterContainsNothing : Prop :=
  ∀ s : State, (∀ i, bitAt s.bv i = false) →
    exec .store s = .next { s with rspPort := s.rspPort ++ [0x00 :: List.replicate 256 0x00] } ∧
    exec .bvpop s = .next { s with rspPort := s.rspPort ++ [[0x00, 0x00, 0x00, 0x00, 0x00]] } ∧
    ∀ d, s.digestReplies = true →
      ∃ t, exec (.contains d) s = .next t ∧ t.bv = s.bv ∧ t.rspPort = s.rspPort ++ [[0x00, 0x00]]

/-- R85: INSERT of absent answers OK, leaves the filter unchanged and makes no digest transaction; CONTAINS of absent
answers false in every state and makes none. -/
def Obligations.AbsentOperandConvention : Prop :=
  ∀ s : State,
    exec (.insert none) s = .next { s with rspPort := s.rspPort ++ [[0x00]] } ∧
    exec (.contains none) s = .next { s with rspPort := s.rspPort ++ [[0x00, 0x00]] }

/-- The filter after a run of INSERT commands depends only on the set of data inserted, not on order or multiplicity
(R86). -/
def Obligations.InsertOrderDoesNotMatter : Prop :=
  ∀ (xs ys : List (List Byte)) (s t u : State),
    (∀ x ∈ xs, x.length ≤ Config.maxPayload) → (∀ x, x ∈ xs ↔ x ∈ ys) →
    s.digestWait = none → s.digestReplies = true →
    Sys2Proof.core.run xs.length { s with cmdPort := xs.map fun x => encode (.insert (some x)) } = .next t →
    Sys2Proof.core.run ys.length { s with cmdPort := ys.map fun y => encode (.insert (some y)) } = .next u →
    t.bv = u.bv

/-- INSERT, CONTAINS and BITPOS answer with status OK, never with `IndexOutOfRange`, for any data and digest (R88). -/
def Obligations.FilterCommandsNeverIndexOutOfRange : Prop :=
  ∀ (i : Instr) (s : State), i.mnemonic ∈ ["INSERT", "CONTAINS", "BITPOS"] → s.digestReplies = true →
    ∃ t body, exec i s = .next t ∧ t.rspPort = s.rspPort ++ [0x00 :: body]

/-- LOAD of 256 bytes followed at once by STORE answers exactly those bytes (R82). -/
def Obligations.LoadThenStoreReturnsTheImage : Prop :=
  ∀ (b : List Byte) (s : State) (rest : List Frame), b.length = 256 → s.digestWait = none →
    s.cmdPort = encode (.load b) :: encode .store :: rest →
    ∃ t u, step s = .next t ∧ step t = .next u ∧ u.cmdPort = rest ∧
      u.rspPort = s.rspPort ++ [[0x00], 0x00 :: b]

/-! ### Invariants and reset -/

/-- Every step keeps the ports' invariant, and so does every host event: responses are legal, digest requests fit a
payload, a waiting command's data was requested last (R50, R51, R55, R56). -/
def Obligations.StepsKeepThePortsInvariant : Prop :=
  (∀ s t : State, PortsInv s → step s = .next t → PortsInv t) ∧
  (∀ (s : State) (e : HostEvent), PortsInv s → PortsInv (s.applyHost e))

/-- The ports' invariant holds at reset. -/
def Obligations.PortsInvariantAtReset : Prop := PortsInv State.reset

/-- R24: right after reset every word, bit and byte of the filter is zero and no frame is partly received; a reset of any
state leaves the same, and so does CLEAR for the filter. -/
def Obligations.ResetEmptiesTheFilter : Prop :=
  (∀ k (h : k < 32), State.reset.bv[k] = 0) ∧ (∀ i, bitAt State.reset.bv i = false) ∧
  (∀ j, byteAt State.reset.bv j = 0) ∧ State.reset.rx = [] ∧
  (∀ s t : State, exec .clear s = .next t →
    t.bv = State.reset.bv ∧ (s.applyHost .reset).bv = State.reset.bv ∧ (s.applyHost .reset).rx = [])

/-- A reset drops a partly received frame and a command in progress without a response, and the next frame received is
exactly the bytes sent after it (R117). Two clauses are the model's choices: that frames queued behind are dropped too
(log entry 6), and that every byte after the reset up to the next end mark belongs to the new frame, a cut frame's
remaining bytes among them (log entry 21). -/
def Obligations.ResetAbandonsWhatIsInProgress : Prop :=
  ∀ (s : State) (f : Frame),
    (s.applyHost .reset).digestWait = none ∧ (s.applyHost .reset).rspPort = s.rspPort ∧
    (s.applyHost .reset).digPort = s.digPort ∧
    ((f.foldl (fun t b => t.applyHost (.byte b)) (s.applyHost .reset)).applyHost .frameEnd) =
      { s with bv := State.reset.bv, rx := [], cmdPort := [f], digestWait := none }

/-! ### The textual spelling -/

/-- Every well-formed command is spelled by its mnemonic and its operands written as R57 says; a comment after it, or
after any line, changes nothing. -/
def Obligations.TextOfACommandSpellsIt : Prop :=
  (∀ i : Instr, i.wf = true → assembleLine (i.mnemonic.toList ++ ' ' :: operandText i) = some i) ∧
  (∀ line comment : List Char, '#' ∉ line → assembleLine (line ++ '#' :: comment) = assembleLine line)
end

