-- ==== Sys2Proof/Laws/Assembler.lean ====
section
/-! SUPPORT. What the textual spelling reads back of what it writes, and how a line falls into tokens (spec/30_encoding.md
R57). -/

namespace Sys2Proof.Machine

/-- Text that can stand as one token of a line: not empty, no space, no comment mark. -/
def IsToken (w : List Char) : Prop := ' ' ∉ w ∧ '#' ∉ w ∧ w ≠ []

theorem takeWhile_no_comment {l : List Char} (h : '#' ∉ l) : l.takeWhile (· ≠ '#') = l := by
  rw [List.takeWhile_eq_self_iff]
  rintro c hc
  simp only [ne_eq, decide_not, Bool.not_eq_eq_eq_not, Bool.not_true, decide_eq_false_iff_not]
  rintro rfl
  exact h hc

/-- A token and a space in front of a line are one token more. -/
theorem tokens_cons_append (w r : List Char) (h : ' ' ∉ w) (hne : w ≠ []) : tokens (w ++ ' ' :: r) = w :: tokens r := by
  unfold tokens
  induction w with
  | nil => exact absurd rfl hne
  | cons c w ih =>
    simp only [List.mem_cons, not_or] at h
    cases w with
    | nil => simp [Ne.symm h.1]
    | cons d w =>
      have := ih h.2 (by simp)
      simp only [List.mem_cons, not_or] at h
      simp_all [Ne.symm h.1, Ne.symm h.2.1]

theorem tokens_singleton (w : List Char) (h : ' ' ∉ w) (hne : w ≠ []) : tokens w = [w] := by
  have hr : ∀ f : Char → List Char × List (List Char) → List Char × List (List Char),
      (∀ c, c ≠ ' ' → ∀ a, f c a = (c :: a.1, a.2)) → w.foldr f ([], []) = (w, []) := by
    intro f hf
    clear hne
    induction w with
    | nil => rfl
    | cons c w ih =>
      simp only [List.mem_cons, not_or] at h
      rw [List.foldr_cons, ih h.2, hf c (Ne.symm h.1)]
  unfold tokens
  simp only
  rw [hr _ (fun c hc a => if_neg hc)]
  simp [hne]

/-! ### Digits -/

theorem hexDigit_digitChar (a : Nat) (h : a < 16) : hexDigit (Nat.digitChar a) = some a := by
  have : ∀ a : Fin 16, hexDigit (Nat.digitChar a) = some a.val := by decide
  exact this ⟨a, h⟩

theorem decDigit_digitChar (a : Nat) (h : a < 10) : decDigit (Nat.digitChar a) = some a := by
  have : ∀ a : Fin 10, decDigit (Nat.digitChar a) = some a.val := by decide
  exact this ⟨a, h⟩

theorem digitChar_plain (a : Nat) (h : a < 16) : Nat.digitChar a ≠ ' ' ∧ Nat.digitChar a ≠ '#' := by
  have : ∀ a : Fin 16, Nat.digitChar a ≠ ' ' ∧ Nat.digitChar a ≠ '#' := by decide
  exact this ⟨a, h⟩

@[simp] theorem hexText_length (n v : Nat) : (hexText n v).length = n := by
  induction n generalizing v with
  | zero => rfl
  | succ n ih => simp [hexText, ih]

theorem hexText_plain (n v : Nat) : ∀ c ∈ hexText n v, c ≠ ' ' ∧ c ≠ '#' := by
  induction n generalizing v with
  | zero => simp [hexText]
  | succ n ih =>
    simp only [hexText, List.mem_cons, forall_eq_or_imp]
    exact ⟨digitChar_plain _ (Nat.mod_lt _ (by decide)), ih v⟩

/-! ### Reading back what was written -/

theorem hexText_value (n v a : Nat) :
    (hexText n v).foldl (fun acc c => acc.bind fun m => (hexDigit c).map fun d => m * 16 + d) (some a) =
      some (a * 16 ^ n + v % 16 ^ n) := by
  induction n generalizing v a with
  | zero => simp [hexText, Nat.mod_one]
  | succ n ih =>
    simp only [hexText, List.foldl_cons, hexDigit_digitChar _ (Nat.mod_lt (v / 16 ^ n) (by decide : 16 > 0)),
      Option.bind_some, Option.map_some, ih]
    have : v % 16 ^ (n + 1) = 16 ^ n * (v / 16 ^ n % 16) + v % 16 ^ n := by rw [pow_succ, Nat.mod_mul, Nat.add_comm]
    rw [this, pow_succ]
    congr 1
    ring

theorem hexToken_hexNumberText (n v : Nat) : hexToken n (hexNumberText n v) = some (v % 16 ^ n) := by
  simp [hexToken, hexNumberText, digitsValue, hexText_value]

theorem hexBytes_hexText (bs : List Byte) : hexBytes (bs.flatMap (hexText 2 ·.toNat)) = some bs := by
  induction bs with
  | nil => rfl
  | cons b bs ih =>
    have e : hexText 2 b.toNat = [Nat.digitChar (b.toNat / 16 ^ 1 % 16), Nat.digitChar (b.toNat / 16 ^ 0 % 16)] := rfl
    simp only [List.flatMap_cons, e, List.cons_append, List.nil_append, hexBytes, ih,
      hexDigit_digitChar _ (Nat.mod_lt _ (by decide : 16 > 0))]
    congr 2
    apply BitVec.eq_of_toNat_eq
    simp
    omega

theorem bytesToken_bytesText (bs : List Byte) : bytesToken (bytesText bs) = some bs := by
  simp [bytesToken, bytesText, hexBytes_hexText]

theorem optionalToken_optionalText (d : Option (List Byte)) : optionalToken (optionalText d) = some d := by
  cases d with
  | none => rfl
  | some data =>
    change optionalToken (bytesText data) = _
    rw [optionalToken, if_neg (by simp [bytesText]), bytesToken_bytesText]
    rfl

theorem digitsValue_decimalText (n v : Nat) (h : v < 10 ^ n) (hn : 0 < n) :
    digitsValue 10 decDigit (decimalText n v) = some v := by
  induction n generalizing v with
  | zero => omega
  | succ n ih =>
    unfold decimalText
    split
    · rename_i hv
      simp [digitsValue, decDigit_digitChar v hv]
    · rename_i hv
      have hn' : 0 < n := by
        rcases n with _ | n
        · simp at h; omega
        · omega
      have := ih (v / 10) (by rw [pow_succ] at h; omega) hn'
      unfold digitsValue at this ⊢
      rw [List.foldl_append, this]
      simp [decDigit_digitChar (v % 10) (by omega)]
      omega

theorem isToken_decimalText (n v : Nat) (hn : 0 < n) : IsToken (decimalText n v) := by
  induction n generalizing v with
  | zero => omega
  | succ n ih =>
    unfold decimalText
    split
    · rename_i hv
      have := digitChar_plain v (by omega)
      exact ⟨by simp [Ne.symm this.1], by simp [Ne.symm this.2], by simp⟩
    · have := digitChar_plain (v % 10) (by omega)
      rcases n with _ | n
      · simp [IsToken, decimalText, Ne.symm this.1, Ne.symm this.2]
      · have h := ih (v / 10) (by omega)
        exact ⟨by simp [h.1, Ne.symm this.1], by simp [h.2.1, Ne.symm this.2], by simp⟩

theorem isToken_bytesText (bs : List Byte) : IsToken (bytesText bs) := by
  have plain : ∀ c ∈ bytesText bs, c ≠ ' ' ∧ c ≠ '#' := by
    simp only [bytesText, List.mem_cons, List.mem_append, List.mem_flatMap]
    rintro c (rfl | rfl | ⟨b, _, h⟩ | rfl | h)
    · decide
    · decide
    · exact hexText_plain _ _ c h
    · decide
    · cases h
  exact ⟨fun h => (plain _ h).1 rfl, fun h => (plain _ h).2 rfl, by simp [bytesText]⟩

theorem isToken_hexNumberText (n v : Nat) : IsToken (hexNumberText n v) := by
  have plain : ∀ c ∈ hexNumberText n v, c ≠ ' ' ∧ c ≠ '#' := by
    simp only [hexNumberText, List.mem_cons]
    rintro c (rfl | rfl | h)
    · decide
    · decide
    · exact hexText_plain _ _ c h
  exact ⟨fun h => (plain _ h).1 rfl, fun h => (plain _ h).2 rfl, by simp [hexNumberText]⟩

end Sys2Proof.Machine
end

