-- ==== Sys2Proof/Laws/Bytes.lean ====
section
/-! SUPPORT. Byte order: `beNat` and `beBytes` are inverse, and so are the word and byte views built from them
(spec/00_scope.md R9, spec/20_memory.md R26). -/

namespace Sys2Proof.Machine

@[simp] theorem beBytes_length (n v : Nat) : (beBytes n v).length = n := by
  induction n with
  | zero => rfl
  | succ n ih => simp [beBytes, ih]

@[simp] theorem beNat_nil : beNat [] = 0 := rfl

theorem beNat_concat (bs : List Byte) (b : Byte) : beNat (bs ++ [b]) = beNat bs * 256 + b.toNat := by
  simp [beNat]

theorem beNat_append (as bs : List Byte) : beNat (as ++ bs) = beNat as * 256 ^ bs.length + beNat bs := by
  induction bs using List.reverseRecOn with
  | nil => simp
  | append_singleton bs b ih =>
    rw [← List.append_assoc, beNat_concat, ih, beNat_concat, List.length_append, pow_add]
    simp; ring

theorem beNat_cons (b : Byte) (bs : List Byte) : beNat (b :: bs) = b.toNat * 256 ^ bs.length + beNat bs := by
  simpa [beNat] using beNat_append [b] bs

theorem beNat_lt (bs : List Byte) : beNat bs < 256 ^ bs.length := by
  induction bs with
  | nil => simp
  | cons b bs ih =>
    rw [beNat_cons, List.length_cons, pow_succ]
    have hb : b.toNat < 256 := b.isLt
    nlinarith

theorem beNat_beBytes (n v : Nat) : beNat (beBytes n v) = v % 256 ^ n := by
  induction n with
  | zero => simp [beBytes, Nat.mod_one]
  | succ n ih =>
    rw [beBytes, beNat_cons, ih, beBytes_length, pow_succ, Nat.mod_mul]
    simp; ring

/-- `beBytes n` looks at nothing of a number but its value modulo `256 ^ n`. -/
theorem beBytes_congr {n v w : Nat} (h : v % 256 ^ n = w % 256 ^ n) : beBytes n v = beBytes n w := by
  induction n with
  | zero => rfl
  | succ n ih =>
    rw [pow_succ, Nat.mod_mul, Nat.mod_mul] at h
    have hpos : 0 < 256 ^ n := by positivity
    have hlow : v % 256 ^ n = w % 256 ^ n := by
      have := congrArg (· % 256 ^ n) h
      simpa [Nat.add_mul_mod_self_left] using this
    have hhigh : v / 256 ^ n % 256 = w / 256 ^ n % 256 := by
      rw [hlow] at h
      exact Nat.eq_of_mul_eq_mul_left hpos (by omega)
    rw [beBytes, beBytes, ih hlow]
    congr 1
    apply BitVec.eq_of_toNat_eq
    simpa using hhigh

theorem beBytes_beNat (bs : List Byte) : beBytes bs.length (beNat bs) = bs := by
  induction bs with
  | nil => rfl
  | cons b bs ih =>
    have hlt := beNat_lt bs
    have hpos : 0 < 256 ^ bs.length := by positivity
    rw [List.length_cons, beBytes, beNat_cons]
    congr 1
    · rw [Nat.add_comm, Nat.add_mul_div_right _ _ hpos, Nat.div_eq_of_lt hlt]
      simp
    · rw [← ih, beBytes_length]
      refine (beBytes_congr ?_).trans rfl
      rw [ih, Nat.add_comm, Nat.add_mul_mod_self_right]

@[simp] theorem be64_length (w : Word) : (be64 w).length = 8 := beBytes_length 8 _

@[simp] theorem wordBE_be64 (w : Word) : wordBE (be64 w) = w := by
  apply BitVec.eq_of_toNat_eq
  have := w.isLt
  simp only [wordBE, be64, beNat_beBytes, BitVec.toNat_ofNat]
  omega

theorem be64_wordBE (bs : List Byte) (h : bs.length = 8) : be64 (wordBE bs) = bs := by
  have hlt := beNat_lt bs
  rw [h] at hlt
  rw [be64, wordBE, BitVec.toNat_ofNat, Nat.mod_eq_of_lt (by omega), ← h, beBytes_beNat]

@[simp] theorem wordsBE_nil : wordsBE [] = [] := rfl

theorem wordsBE_append (as bs : List Byte) (h : as.length = 8) :
    wordsBE (as ++ bs) = wordBE as :: wordsBE bs := by
  have hd : (as.length + bs.length) / 8 = bs.length / 8 + 1 := by omega
  rw [wordsBE, List.length_append, hd, List.range_succ_eq_map, List.map_cons, List.map_map]
  congr 1
  · simp [h]
  · apply List.map_congr_left
    intro k _
    have h8k : 8 * (k + 1) = as.length + 8 * k := by omega
    have hdrop : as.drop (as.length + 8 * k) = [] := List.drop_eq_nil_of_le (by omega)
    simp [h8k, List.drop_append, hdrop]

@[simp] theorem wordsBE_length (bs : List Byte) : (wordsBE bs).length = bs.length / 8 := by simp [wordsBE]

@[simp] theorem bcLongsToBytes_nil : bcLongsToBytes [] = [] := rfl

@[simp] theorem bcLongsToBytes_cons (w : Word) (ws : List Word) :
    bcLongsToBytes (w :: ws) = be64 w ++ bcLongsToBytes ws := rfl

@[simp] theorem bcLongsToBytes_length (ws : List Word) : (bcLongsToBytes ws).length = 8 * ws.length := by
  induction ws with
  | nil => rfl
  | cons w ws ih => simp [ih]; omega

@[simp] theorem wordsBE_bcLongsToBytes (ws : List Word) : wordsBE (bcLongsToBytes ws) = ws := by
  induction ws with
  | nil => rfl
  | cons w ws ih => rw [bcLongsToBytes_cons, wordsBE_append _ _ (be64_length w), wordBE_be64, ih]

/-- A byte sequence of `8 * n` bytes is the bytes of its words. -/
theorem bcLongsToBytes_wordsBE (n : Nat) (bs : List Byte) (h : bs.length = 8 * n) :
    bcLongsToBytes (wordsBE bs) = bs := by
  induction n generalizing bs with
  | zero =>
    obtain rfl : bs = [] := List.eq_nil_of_length_eq_zero (by omega)
    rfl
  | succ n ih =>
    have hsplit : bs.take 8 ++ bs.drop 8 = bs := List.take_append_drop 8 bs
    have h8 : (bs.take 8).length = 8 := by simp; omega
    have hrest : (bs.drop 8).length = 8 * n := by simp; omega
    conv_lhs => rw [← hsplit, wordsBE_append _ _ h8, bcLongsToBytes_cons, be64_wordBE _ h8, ih _ hrest]
    exact hsplit

/-- A byte has at most 8 one bits (R89). -/
theorem byteOnes_le (b : Byte) : byteOnes b ≤ 8 := by
  simpa [byteOnes] using List.countP_le_length (p := fun n => b.getLsbD n) (l := List.range 8)

theorem bcPopcount_le (buf : List Byte) : bcPopcount buf ≤ 8 * buf.length := by
  induction buf with
  | nil => simp [bcPopcount]
  | cons b bs ih =>
    have := byteOnes_le b
    simp only [bcPopcount, List.map_cons, List.sum_cons, List.length_cons] at ih ⊢
    omega

@[simp] theorem low8_byte (b : Byte) : low8 (b.toNat : Int) = b.toNat := by
  have := b.isLt
  simp only [low8]
  omega

/-- On bytes, `u32FromBytes` is the big-endian number of the four bytes (R90). -/
theorem bcU32FromBytes_toNat (b0 b1 b2 b3 : Byte) :
    (bcU32FromBytes b0.toNat b1.toNat b2.toNat b3.toNat).toNat = beNat [b0, b1, b2, b3] := by
  have h0 := b0.isLt
  have h1 := b1.isLt
  have h2 := b2.isLt
  have h3 := b3.isLt
  simp only [bcU32FromBytes, low8_byte, BitVec.toNat_ofNat, beNat_cons, beNat_nil, List.length_cons,
    List.length_nil]
  omega

end Sys2Proof.Machine
end

