-- ==== Sys2Proof/Laws/Views.lean ====
section
/-! SUPPORT. The views of the bit vector agree (spec/10_state.md R12 to R14), setting one bit, the serialized form, and
the list view of memory. -/

namespace Sys2Proof.Machine

/-- Two vectors with the same bits are equal. -/
theorem bv_ext_bits {v w : BV} (h : ∀ i, bitAt v i = bitAt w i) : v = w := by
  apply Vector.ext
  intro k hk
  apply BitVec.eq_of_getLsbD_eq
  intro n hn
  have hi := h ⟨64 * k + (63 - n), by omega⟩
  have hdiv : (64 * k + (63 - n)) / 64 = k := by omega
  have hmod : 63 - (64 * k + (63 - n)) % 64 = n := by omega
  simpa only [bitAt, hdiv, hmod] using hi

/-- The bit view through the byte view (R14). -/
theorem bitAt_eq_byteAt (v : BV) (i : BitIndex) :
    bitAt v i = (byteAt v ⟨i.val / 8, by have := i.isLt; omega⟩).getLsbD (7 - i.val % 8) := by
  have hdiv : i.val / 8 / 8 = i.val / 64 := by omega
  have hmod : 56 - 8 * (i.val / 8 % 8) + (7 - i.val % 8) = 63 - i.val % 64 := by omega
  have hlt : 7 - i.val % 8 < 8 := by omega
  simp only [bitAt, byteAt, BitVec.getLsbD_extractLsb', hdiv, hmod, hlt, decide_true, Bool.true_and]

/-- The byte view through the bit view (R14). -/
theorem byteAt_getLsbD (v : BV) (j : Fin 256) (n : Nat) (hn : n < 8) :
    (byteAt v j).getLsbD n = bitAt v ⟨8 * j.val + (7 - n), by have := j.isLt; omega⟩ := by
  have h1 : (8 * j.val + (7 - n)) / 8 = j.val := by omega
  have h2 : 7 - (8 * j.val + (7 - n)) % 8 = n := by omega
  rw [bitAt_eq_byteAt]
  simp only [h1, h2]

/-- Two vectors with the same bytes are equal. -/
theorem bv_ext_bytes {v w : BV} (h : ∀ j, byteAt v j = byteAt w j) : v = w := by
  apply bv_ext_bits
  intro i
  rw [bitAt_eq_byteAt, bitAt_eq_byteAt, h]

/-- Setting a bit sets that bit and no other. -/
theorem bitAt_setBit (v : BV) (i j : BitIndex) :
    bitAt (setBit v i) j = (decide (j = i) || bitAt v j) := by
  unfold bitAt setBit
  rw [Vector.getElem_set]
  by_cases hw : i.val / 64 = j.val / 64
  · simp only [hw, if_true, BitVec.getLsbD_or, BitVec.getLsbD_twoPow]
    by_cases hij : j = i
    · subst hij
      have : 63 - j.val % 64 < 64 := by omega
      simp [this]
    · have hne : ¬ (63 - i.val % 64 = 63 - j.val % 64) := by
        intro hmod
        apply hij
        apply Fin.ext
        omega
      simp [hij, hne]
  · have hij : j ≠ i := by rintro rfl; exact hw rfl
    simp [hw, hij]

@[simp] theorem bitAt_emptyBV (i : BitIndex) : bitAt emptyBV i = false := by
  simp [bitAt, emptyBV]

@[simp] theorem byteAt_emptyBV (j : Fin 256) : byteAt emptyBV j = 0 := by
  simp [byteAt, emptyBV]

/-- The words of `bv_fromBytes` are the words of the byte sequence (R64 through R92). -/
theorem bvFromBytes_toList (buf : List Byte) (h : buf.length = 256) :
    (Vector.ofFn fun k : Fin 32 => wordBE ((buf.drop (8 * k.val)).take 8)).toList = wordsBE buf := by
  apply List.ext_getElem
  · simp [h]
  · intro k h1 h2
    simp [wordsBE]

theorem bvFromBytes_ok (buf : List Byte) (h : buf.length = 256) :
    ∃ v : BV, bvFromBytes buf = .ok v ∧ v.toList = wordsBE buf :=
  ⟨_, by simp [bvFromBytes, h], bvFromBytes_toList buf h⟩

theorem bvFromBytes_error (buf : List Byte) (h : buf.length ≠ 256) :
    bvFromBytes buf = .error .invalidLength := by simp [bvFromBytes, h]

@[simp] theorem bvToBytes_length (v : BV) : (bvToBytes v).length = 256 := by simp [bvToBytes]

/-- Serializing what was deserialized gives the bytes back (half of R68). -/
theorem bvToBytes_of_bvFromBytes {buf : List Byte} {v : BV} (h : bvFromBytes buf = .ok v) :
    bvToBytes v = buf := by
  by_cases hl : buf.length = 256
  · obtain ⟨w, hw, hlist⟩ := bvFromBytes_ok buf hl
    obtain rfl : w = v := by rw [hw] at h; injection h
    rw [bvToBytes, hlist, bcLongsToBytes_wordsBE 32 buf (by omega)]
  · rw [bvFromBytes_error buf hl] at h; cases h

/-- Deserializing what was serialized gives the vector back (the other half of R68). -/
theorem bvFromBytes_bvToBytes (v : BV) : bvFromBytes (bvToBytes v) = .ok v := by
  obtain ⟨w, hw, hlist⟩ := bvFromBytes_ok _ (bvToBytes_length v)
  rw [bvToBytes, wordsBE_bcLongsToBytes] at hlist
  rw [hw, Vector.toList_inj.mp hlist]

/-- A byte of a big-endian image is a slice of the number. -/
theorem beBytes_getElem (n v j : Nat) (h : j < (beBytes n v).length) :
    (beBytes n v)[j] = BitVec.ofNat 8 (v / 256 ^ (n - 1 - j)) := by
  induction n generalizing j with
  | zero => simp at h
  | succ n ih =>
    cases j with
    | zero => simp [beBytes]
    | succ j =>
      simp only [beBytes, List.getElem_cons_succ]
      rw [ih]
      congr 3
      omega

/-- Byte `m` of `be64` is `w[63-8m : 56-8m]` (R9). -/
theorem be64_getElem (w : Word) (m : Nat) (h : m < (be64 w).length) :
    (be64 w)[m] = w.extractLsb' (56 - 8 * m) 8 := by
  have hm : m < 8 := by simpa using h
  have hpow : 256 ^ (8 - 1 - m) = 2 ^ (56 - 8 * m) := by
    rw [show (256 : Nat) = 2 ^ 8 from rfl, ← pow_mul]
    congr 1
    omega
  simp only [be64]
  rw [beBytes_getElem, hpow]
  apply BitVec.eq_of_toNat_eq
  simp [BitVec.extractLsb'_toNat, Nat.shiftRight_eq_div_pow]

theorem bcLongsToBytes_getElem (ws : List Word) (j : Nat) (h : j < (bcLongsToBytes ws).length) :
    (bcLongsToBytes ws)[j] =
      (ws[j / 8]'(by simp at h; omega)).extractLsb' (56 - 8 * (j % 8)) 8 := by
  induction ws generalizing j with
  | nil => simp at h
  | cons w ws ih =>
    simp only [bcLongsToBytes_cons]
    rw [List.getElem_append]
    by_cases hj : j < 8
    · have h0 : j / 8 = 0 := by omega
      have h1 : j % 8 = j := by omega
      simp only [be64_length, hj, dite_true, be64_getElem, h0, h1, List.getElem_cons_zero]
    · have h0 : j / 8 = (j - 8) / 8 + 1 := by omega
      have h1 : j % 8 = (j - 8) % 8 := by omega
      simp only [be64_length, hj, dite_false, h0, h1, List.getElem_cons_succ]
      exact ih _ _

/-- The serialized form is the byte view in order (R65). -/
theorem bvToBytes_eq_ofFn (v : BV) : bvToBytes v = List.ofFn (byteAt v) := by
  apply List.ext_getElem
  · rw [bvToBytes_length, List.length_ofFn]
  · intro j h1 h2
    simp only [bvToBytes, bcLongsToBytes_getElem, List.getElem_ofFn, byteAt, Vector.getElem_toList]

/-- After a successful `bv_fromBytes`, `B[j] = buf[j]` (R64). -/
theorem byteAt_of_bvFromBytes {buf : List Byte} {v : BV} (h : bvFromBytes buf = .ok v) (j : Fin 256) :
    buf[j.val]? = some (byteAt v j) := by
  have hj : j.val < (List.ofFn (byteAt v)).length := by rw [List.length_ofFn]; exact j.isLt
  rw [← bvToBytes_of_bvFromBytes h, bvToBytes_eq_ofFn, List.getElem?_eq_getElem hj, List.getElem_ofFn]

@[simp] theorem memRead_all (v : BV) (h : 0 + 256 ≤ 256) : memRead v 0 256 h = bvToBytes v := by
  rw [bvToBytes_eq_ofFn, memRead]
  congr 1
  funext t
  simp only [Nat.zero_add]

/-- The word assembled from eight bytes has those bytes. -/
theorem wordBE_extractLsb' (bs : List Byte) (h : bs.length = 8) (m : Nat) (hm : m < bs.length) :
    (wordBE bs).extractLsb' (56 - 8 * m) 8 = bs[m] := by
  have := be64_getElem (wordBE bs) m (by simp; omega)
  rw [← this]
  simp only [be64_wordBE bs h]

/-- A write of bytes is seen at the bytes written, and nowhere else. -/
theorem byteAt_memWrite (v : BV) (j n : Nat) (b : Vector Byte n) (a : Fin 256) :
    byteAt (memWrite v j n b) a =
      if h : j ≤ a.val ∧ a.val < j + n then b[a.val - j]'(by omega) else byteAt v a := by
  have hk : 8 * (a.val / 8) + a.val % 8 = a.val := by omega
  unfold byteAt memWrite
  rw [Vector.getElem_ofFn, wordBE_extractLsb' _ (by simp) _ (by simp; omega)]
  simp only [List.getElem_ofFn, hk]
  rfl

/-! ### The list view of memory -/

theorem memoryOf_wf (v : BV) : (memoryOf v).wf = true := by
  simp only [Memory.wf, Bool.and_eq_true, List.all_eq_true, decide_eq_true_eq]
  constructor
  · intro c hc
    simp only [memoryOf, List.mem_filterMap] at hc
    obtain ⟨j, -, hj⟩ := hc
    split at hj
    · cases hj
    · obtain rfl := Option.some.inj hj
      simp_all
  · unfold memoryOf
    refine List.Pairwise.filterMap (R := (· < ·)) _ ?_ (List.pairwise_lt_finRange 256)
    intro a b hab x hx y hy
    split at hx <;> split at hy <;> simp_all
    obtain rfl := hx
    obtain rfl := hy
    exact hab

/-- The list view reads as the byte view does. -/
theorem memoryOf_read (v : BV) (j : Fin 256) : (memoryOf v).read j.val = byteAt v j := by
  have hfind : ∀ l : List (Fin 256), (j ∈ l ∨ byteAt v j = 0) →
      Memory.read (l.filterMap fun j => if byteAt v j = 0 then none else some (j.val, byteAt v j)) j.val =
        byteAt v j := by
    intro l
    induction l with
    | nil =>
      intro h
      simpa [Memory.read, eq_comm] using h
    | cons a l ih =>
      intro h
      by_cases h0 : byteAt v a = 0
      · rw [List.filterMap_cons_none (by rw [if_pos h0])]
        apply ih
        rcases h with h | h
        · rcases List.mem_cons.mp h with rfl | h
          · exact .inr h0
          · exact .inl h
        · exact .inr h
      · rw [List.filterMap_cons_some (b := (a.val, byteAt v a)) (by rw [if_neg h0])]
        by_cases ha : a = j
        · subst ha
          simp [Memory.read]
        · have hne : a.val ≠ j.val := fun hv => ha (Fin.ext hv)
          have : j ∈ l ∨ byteAt v j = 0 := by
            rcases h with h | h
            · rcases List.mem_cons.mp h with rfl | h
              · exact absurd rfl ha
              · exact .inl h
            · exact .inr h
          rw [← ih this]
          simp [Memory.read, hne]
  exact hfind _ (.inl (List.mem_finRange j))

theorem memoryOf_injective {v w : BV} (h : memoryOf v = memoryOf w) : v = w :=
  bv_ext_bytes fun j => by rw [← memoryOf_read, ← memoryOf_read, h]

end Sys2Proof.Machine
end

