-- ==== Sys2Proof/Laws/Bloom.lean ====
section
/-! SUPPORT. The mapping from digests to bit positions and the loops of INSERT and CONTAINS, each said once
(spec/41_bloomfilter.md R72, R73, R78, R79). -/

namespace Sys2Proof.Machine

/-- The value of a byte pair (R72). -/
theorem bfH_toNat (d0 d1 : Byte) : (bfH d0 d1).toNat = d0.toNat * 256 + d1.toNat := by
  have h0 := d0.isLt
  have h1 := d1.isLt
  have hz : low8 0 = 0 := rfl
  simp only [bfH, bcU32FromBytes, BitVec.toNat_ofNat, low8_byte, hz]
  omega

theorem bfPos_val (d0 d1 : Byte) : (bfPos d0 d1).val = 2047 - (d0.toNat * 256 + d1.toNat) % 2048 := by
  simp only [bfPos, bfH_toNat]

/-- The positions of a digest are its digest bits (R73). -/
theorem mem_bfPositions (dg : Digest) (i : BitIndex) : i ∈ bfPositions dg ↔ DigestBit dg i := by
  simp only [DigestBit, bfPositions, bfPairPos, List.mem_cons, List.not_mem_nil, or_false, Fin.ext_iff, bfPos_val]

/-- INSERT's loop sets the bits of the positions and no other. -/
theorem bitAt_bfMark (v : BV) (ps : List BitIndex) (i : BitIndex) :
    bitAt (bfMark v ps) i = true ↔ bitAt v i = true ∨ i ∈ ps := by
  induction ps generalizing v with
  | nil => simp [bfMark]
  | cons p ps ih =>
    have hcons : bfMark v (p :: ps) = bfMark (setBit v p) ps := rfl
    rw [hcons, ih, bitAt_setBit, Bool.or_eq_true, decide_eq_true_eq, List.mem_cons]
    tauto

/-- CONTAINS' loop says whether every bit of the positions is set. -/
theorem bfTest_iff (v : BV) (ps : List BitIndex) : bfTest v ps = true ↔ ∀ p ∈ ps, bitAt v p = true := by
  induction ps with
  | nil => simp [bfTest]
  | cons p ps ih =>
    rw [bfTest]
    by_cases hp : bitAt v p = true
    · rw [if_pos hp, ih]
      simp [hp]
    · rw [if_neg hp]
      simp [hp]

end Sys2Proof.Machine
end

