-- ==== Sys2Proof/Laws/Config.lean ====
section
/-! SUPPORT. The constants of Config and the sizes that stand in the types agree (spec/00_scope.md R5). -/

namespace Sys2Proof.Laws

open Sys2Proof.Machine

theorem numBits_eq_card_bitIndex : Config.numBits = Fintype.card BitIndex := by simp [Config.numBits]

theorem numWords_eq_wordCount : Config.numWords = Config.numBits / Config.wordBits := by decide

theorem numBytes_eq_numBits_div : Config.numBytes = Config.numBits / 8 := by decide

theorem numHash_eq_pairOffsets_length : Config.numHash = Config.pairOffsets.length := by decide

theorem digestBytes_eq_digest_length (dg : Digest) : dg.toList.length = Config.digestBytes := by
  simp [Config.digestBytes]

theorem numHash_eq_bfPositions_length (dg : Digest) : (bfPositions dg).length = Config.numHash := rfl

/-- The configured size passes the check of `bv_new` (spec/40_bitvector.md R63; spec/60_exceptions.md R102). -/
theorem numBits_passes_bvNew : bvNew Config.numBits = .ok emptyBV.toList := by decide

theorem maxPayload_legal : Config.maxPayloadLegal Config.maxPayload = true := by decide

end Sys2Proof.Laws
end

