-- ==== Sys2Proof/Laws/Decode.lean ====
section
/-! SUPPORT. The parts of a frame (spec/30_encoding.md R44): the header and the payload of `frameOf`, and the header
fields as the bytes of the frame. -/

namespace Sys2Proof

open Sys2Proof.Machine

@[simp] theorem payloadOf_frameOf (op arg : Nat) (p : List Byte) : payloadOf (frameOf op arg p) = p := by
  rw [payloadOf, frameOf, List.drop_append_of_le_length (by simp), List.drop_eq_nil_of_le (by simp)]
  rfl

@[simp] theorem frameOf_length (op arg : Nat) (p : List Byte) : (frameOf op arg p).length = 4 + p.length := by
  simp [frameOf]

theorem headerOf_frameOf (op arg : Nat) (p : List Byte) (hop : op < 256) (harg : arg < 2 ^ 24) :
    headerOf (frameOf op arg p) = op * 2 ^ 24 + arg := by
  rw [headerOf, frameOf, List.take_append_of_le_length (by simp), List.take_of_length_le (by simp), beNat_beBytes]
  omega

theorem headerOp_frameOf (op arg : Nat) (p : List Byte) (hop : op < 256) (harg : arg < 2 ^ 24) :
    headerOp (headerOf (frameOf op arg p)) = op := by
  rw [headerOf_frameOf op arg p hop harg]
  simp only [headerOp, slice]
  omega

theorem headerArg_frameOf (op arg : Nat) (p : List Byte) (hop : op < 256) (harg : arg < 2 ^ 24) :
    headerArg (headerOf (frameOf op arg p)) = arg := by
  rw [headerOf_frameOf op arg p hop harg]
  simp only [headerArg, slice]
  omega

/-- A frame whose fields fit decodes by its fields alone. -/
theorem decodeWith_frameOf (m op arg : Nat) (p : List Byte) (hop : op < 256) (harg : arg < 2 ^ 24)
    (hp : p.length ≤ m) : decodeWith m (frameOf op arg p) = decodeFields op arg p := by
  rw [decodeWith, if_neg (by simp), payloadOf_frameOf, if_neg (by omega), headerOp_frameOf op arg p hop harg,
    headerArg_frameOf op arg p hop harg]

theorem headerOf_lt (f : Frame) (h : 4 ≤ f.length) : headerOf f < 2 ^ 32 := by
  have hlt := beNat_lt (f.take 4)
  have h4 : (f.take 4).length = 4 := by simp; omega
  rw [h4] at hlt
  exact hlt

/-- A frame of at least four bytes is the frame of its fields. -/
theorem frameOf_fields (f : Frame) (h : 4 ≤ f.length) :
    frameOf (headerOp (headerOf f)) (headerArg (headerOf f)) (payloadOf f) = f := by
  have hlt := headerOf_lt f h
  have h4 : (f.take 4).length = 4 := by simp; omega
  have hsum : headerOp (headerOf f) * 2 ^ 24 + headerArg (headerOf f) = headerOf f := by
    simp only [headerOp, headerArg, slice]
    omega
  have hbytes := beBytes_beNat (f.take 4)
  rw [h4] at hbytes
  rw [frameOf, hsum, headerOf, hbytes, payloadOf, List.take_append_drop]

/-- A frame that decodes to a command has a header and a payload that `MAX_PAYLOAD` admits, and the command is that of
its fields. -/
theorem decodeWith_command {m : Nat} {f : Frame} {i : Instr} (h : decodeWith m f = .command i) :
    4 ≤ f.length ∧ (payloadOf f).length ≤ m ∧
    decodeFields (headerOp (headerOf f)) (headerArg (headerOf f)) (payloadOf f) = .command i := by
  unfold decodeWith at h
  split at h
  · cases h
  · split at h
    · cases h
    · exact ⟨by omega, by omega, h⟩

theorem headerArg_lt (h : Nat) : headerArg h < 2 ^ 24 := by
  simp only [headerArg, slice]
  omega

end Sys2Proof
end

