-- ==== Sys2Proof/Laws/State.lean ====
section
/-! SUPPORT. One lemma per field per update of the state, so that no later proof unfolds a record update. -/

namespace Sys2Proof.Machine

variable (s : State)

section Emit
variable (r : Response)
@[simp] theorem State.emit_bv : (s.emit r).bv = s.bv := rfl
@[simp] theorem State.emit_rx : (s.emit r).rx = s.rx := rfl
@[simp] theorem State.emit_cmdPort : (s.emit r).cmdPort = s.cmdPort := rfl
@[simp] theorem State.emit_rspPort : (s.emit r).rspPort = s.rspPort ++ [responseFrame r] := rfl
@[simp] theorem State.emit_digPort : (s.emit r).digPort = s.digPort := rfl
@[simp] theorem State.emit_digestWait : (s.emit r).digestWait = s.digestWait := rfl
@[simp] theorem State.emit_digestReplies : (s.emit r).digestReplies = s.digestReplies := rfl
end Emit

section Raise
variable (k : ErrorKind)
@[simp] theorem State.raise_bv : (s.raise k).bv = s.bv := rfl
@[simp] theorem State.raise_rx : (s.raise k).rx = s.rx := rfl
@[simp] theorem State.raise_cmdPort : (s.raise k).cmdPort = s.cmdPort := rfl
@[simp] theorem State.raise_rspPort : (s.raise k).rspPort = s.rspPort ++ [[statusOf k]] := rfl
@[simp] theorem State.raise_digPort : (s.raise k).digPort = s.digPort := rfl
@[simp] theorem State.raise_digestWait : (s.raise k).digestWait = s.digestWait := rfl
@[simp] theorem State.raise_digestReplies : (s.raise k).digestReplies = s.digestReplies := rfl
end Raise

section Respond
variable (r : Result)
@[simp] theorem State.respond_bv : (s.respond r).bv = s.bv := rfl
@[simp] theorem State.respond_rx : (s.respond r).rx = s.rx := rfl
@[simp] theorem State.respond_cmdPort : (s.respond r).cmdPort = s.cmdPort := rfl
@[simp] theorem State.respond_rspPort :
    (s.respond r).rspPort = s.rspPort ++ [statusOk :: resultBytes r] := rfl
@[simp] theorem State.respond_digPort : (s.respond r).digPort = s.digPort := rfl
@[simp] theorem State.respond_digestWait : (s.respond r).digestWait = s.digestWait := rfl
@[simp] theorem State.respond_digestReplies : (s.respond r).digestReplies = s.digestReplies := rfl
end Respond

section SetBV
variable (v : BV)
@[simp] theorem State.setBV_bv : (s.setBV v).bv = v := rfl
@[simp] theorem State.setBV_rx : (s.setBV v).rx = s.rx := rfl
@[simp] theorem State.setBV_cmdPort : (s.setBV v).cmdPort = s.cmdPort := rfl
@[simp] theorem State.setBV_rspPort : (s.setBV v).rspPort = s.rspPort := rfl
@[simp] theorem State.setBV_digPort : (s.setBV v).digPort = s.digPort := rfl
@[simp] theorem State.setBV_digestWait : (s.setBV v).digestWait = s.digestWait := rfl
@[simp] theorem State.setBV_digestReplies : (s.setBV v).digestReplies = s.digestReplies := rfl
@[simp] theorem State.setBV_self : s.setBV s.bv = s := rfl
end SetBV

section RequestDigest
variable (data : List Byte)
@[simp] theorem State.requestDigest_bv : (s.requestDigest data).bv = s.bv := rfl
@[simp] theorem State.requestDigest_rx : (s.requestDigest data).rx = s.rx := rfl
@[simp] theorem State.requestDigest_cmdPort : (s.requestDigest data).cmdPort = s.cmdPort := rfl
@[simp] theorem State.requestDigest_rspPort : (s.requestDigest data).rspPort = s.rspPort := rfl
@[simp] theorem State.requestDigest_digPort : (s.requestDigest data).digPort = s.digPort ++ [data] := rfl
@[simp] theorem State.requestDigest_digestWait : (s.requestDigest data).digestWait = s.digestWait := rfl
@[simp] theorem State.requestDigest_digestReplies :
    (s.requestDigest data).digestReplies = s.digestReplies := rfl
end RequestDigest

section HostReset
@[simp] theorem State.hostReset_bv : s.hostReset.bv = emptyBV := rfl
@[simp] theorem State.hostReset_rx : s.hostReset.rx = [] := rfl
@[simp] theorem State.hostReset_cmdPort : s.hostReset.cmdPort = [] := rfl
@[simp] theorem State.hostReset_rspPort : s.hostReset.rspPort = s.rspPort := rfl
@[simp] theorem State.hostReset_digPort : s.hostReset.digPort = s.digPort := rfl
@[simp] theorem State.hostReset_digestWait : s.hostReset.digestWait = none := rfl
@[simp] theorem State.hostReset_digestReplies : s.hostReset.digestReplies = s.digestReplies := rfl
end HostReset

@[simp] theorem State.reset_bv : State.reset.bv = emptyBV := rfl
@[simp] theorem State.reset_digestWait : State.reset.digestWait = none := rfl

@[simp] theorem DigestWait.data_insert (data : List Byte) : (DigestWait.insert data).data = data := rfl
@[simp] theorem DigestWait.data_contains (data : List Byte) : (DigestWait.contains data).data = data := rfl

/-- Every host event but a reset leaves the filter alone. -/
theorem State.applyHost_bv (e : HostEvent) (h : e ≠ .reset) : (s.applyHost e).bv = s.bv := by
  cases e <;> first | rfl | exact absurd rfl h

/-- No host event withdraws a response that was emitted. -/
@[simp] theorem State.applyHost_rspPort (e : HostEvent) : (s.applyHost e).rspPort = s.rspPort := by
  cases e <;> rfl

/-- No host event touches the record of digest requests. -/
@[simp] theorem State.applyHost_digPort (e : HostEvent) : (s.applyHost e).digPort = s.digPort := by
  cases e <;> rfl

end Sys2Proof.Machine
end

