-- ==== Sys2Proof/Laws/Ops.lean ====
section
/-! SUPPORT. What the shared operations and the step can do, each said once. -/

namespace Sys2Proof.Machine

variable {s t : State}

theorem conclude_ok (s : State) (v : BV) (r : Result) :
    s.conclude (.ok (v, r)) = .next ((s.setBV v).respond r) := rfl

theorem conclude_error (s : State) (k : ErrorKind) : s.conclude (.error k) = .next (s.raise k) := rfl

/-- A bit index in range names itself; any other integer is `IndexOutOfRange` (R66, R67). -/
theorem bitIndex_nat (n : Nat) :
    bitIndex (n : Int) = if h : n < 2048 then .ok ⟨n, h⟩ else .error .indexOutOfRange := by
  unfold bitIndex
  by_cases h : n < 2048
  · rw [dif_pos h, dif_neg (by omega)]
    rfl
  · rw [dif_neg h, dif_pos (by omega)]

/-- The state after a command whose digest, if it needs one, has come: the abstract command on `BV`, one response,
and the digest requests of the command. -/
def answered (i : Instr) (s : State) : State :=
  { s with
    bv := (abstractCommand Config.keccak256 s.bv i).1
    rspPort := s.rspPort ++ [responseFrame (abstractCommand Config.keccak256 s.bv i).2]
    digPort := s.digPort ++ i.digestRequests }

/-- Concluding with the abstract command's outcome is answering it, but for the digest requests. -/
theorem conclude_abstract (i : Instr) (s : State) :
    s.conclude (abstractConclusion Config.keccak256 s.bv i) = .next { answered i s with digPort := s.digPort } := by
  unfold State.conclude answered abstractCommand
  cases abstractConclusion Config.keccak256 s.bv i <;> rfl

/-- A command without a digest transaction concludes at once. -/
theorem exec_of_no_digest (i : Instr) (s : State) (h : i.digestRequests = []) :
    exec i s = .next (answered i s) := by
  have hconclude : exec i s = s.conclude (abstractConclusion Config.keccak256 s.bv i) := by
    cases i with
    | insert d =>
      cases d with
      | none => rfl
      | some data => cases h
    | contains d =>
      cases d with
      | none => rfl
      | some data => cases h
    | load buf => simp only [exec, execLoad, abstractConclusion]
    | bvset idx => simp only [exec, execBvset, abstractConclusion]
    | bvget idx => simp only [exec, execBvget, abstractConclusion]
    | unpack buf => simp only [exec, execUnpack, abstractConclusion]
    | _ => rfl
  rw [hconclude, conclude_abstract]
  simp only [answered, h, List.append_nil]

/-- The command of a digest wait. -/
def DigestWait.command : DigestWait → Instr
  | .insert data => .insert (some data)
  | .contains data => .contains (some data)

/-- Completing a digest command is the abstract command, without a further request. -/
theorem completeDigest_eq (w : DigestWait) (s : State) :
    completeDigest w s = .next { answered w.command s with digPort := s.digPort } := by
  cases w <;> rfl

/-- A command whose collaborator replies is answered in the same step. -/
theorem exec_of_replies (i : Instr) (s : State) (h : s.digestReplies = true) :
    exec i s = .next (answered i s) := by
  by_cases hd : i.digestRequests = []
  · exact exec_of_no_digest i s hd
  · cases i with
    | insert d =>
      cases d with
      | none => exact absurd rfl hd
      | some data => simp only [exec, execInsert, startDigest, h, if_true, completeDigest_eq]; rfl
    | contains d =>
      cases d with
      | none => exact absurd rfl hd
      | some data => simp only [exec, execContains, startDigest, h, if_true, completeDigest_eq]; rfl
    | _ => exact absurd rfl hd

/-- A command that needs a digest and gets none stays in progress, its request sent, nothing else changed. -/
theorem exec_of_no_reply (w : DigestWait) (s : State) (h : s.digestReplies = false) :
    exec w.command s = .next { s with digPort := s.digPort ++ [w.data], digestWait := some w } := by
  cases w <;> simp [exec, execInsert, execContains, DigestWait.command, startDigest, h, State.requestDigest,
    DigestWait.data]

/-- Everything a command can do. -/
theorem exec_cases (i : Instr) (s : State) :
    exec i s = .next (answered i s) ∨
    ∃ w, i = w.command ∧ s.digestReplies = false ∧
      exec i s = .next { s with digPort := s.digPort ++ [w.data], digestWait := some w } := by
  by_cases h : s.digestReplies = true
  · exact .inl (exec_of_replies i s h)
  · have h : s.digestReplies = false := by simpa using h
    by_cases hd : i.digestRequests = []
    · exact .inl (exec_of_no_digest i s hd)
    · obtain ⟨w, rfl⟩ : ∃ w : DigestWait, i = w.command := by
        cases i with
        | insert d =>
          cases d with
          | none => exact absurd rfl hd
          | some data => exact ⟨.insert data, rfl⟩
        | contains d =>
          cases d with
          | none => exact absurd rfl hd
          | some data => exact ⟨.contains data, rfl⟩
        | _ => exact absurd rfl hd
      exact .inr ⟨w, rfl, h, exec_of_no_reply w s h⟩

/-- Everything a step of the engine can do when it answers a next state. -/
theorem step_cases (h : step s = .next t) :
    (s.digestWait = none ∧ s.cmdPort = [] ∧ t = s) ∨
    (∃ f rest r, s.digestWait = none ∧ s.cmdPort = f :: rest ∧ decode f = .illegal r ∧
      t = State.raise .illegalCommand { s with cmdPort := rest }) ∨
    (∃ f rest i, s.digestWait = none ∧ s.cmdPort = f :: rest ∧ decode f = .command i ∧
      exec i { s with cmdPort := rest } = .next t) ∨
    (∃ w, s.digestWait = some w ∧ s.digestReplies = true ∧
      t = { answered w.command { s with digestWait := none } with digPort := s.digPort }) := by
  unfold step stepWith at h
  cases hw : s.digestWait with
  | some w =>
    simp only [hw, resumeDigest] at h
    by_cases hr : s.digestReplies = true
    · rw [if_pos hr, completeDigest_eq] at h
      injection h with h
      exact .inr (.inr (.inr ⟨w, rfl, hr, h.symm⟩))
    · rw [if_neg hr] at h; cases h
  | none =>
    simp only [hw, State.fetch] at h
    cases hc : s.cmdPort with
    | nil =>
      simp only [hc] at h
      injection h with h
      exact .inl ⟨rfl, rfl, h.symm⟩
    | cons f rest =>
      simp only [hc] at h
      cases hd : decodeWith Config.maxPayload f with
      | illegal r =>
        simp only [hd] at h
        injection h with h
        exact .inr (.inl ⟨f, rest, r, rfl, rfl, hd, h.symm⟩)
      | command i =>
        simp only [hd] at h
        exact .inr (.inr (.inl ⟨f, rest, i, rfl, rfl, hd, h⟩))

end Sys2Proof.Machine
end

