-- ==== Sys2Proof/Laws/PerInstr.lean ====
section
/-! SUPPORT. What is said of every command one by one, family by family (LAWS.json). -/

namespace Sys2Proof.Laws.Framing

open Sys2Proof.Machine

/-- The frame of a well-formed command has its four header bytes, and a payload that `MAX_PAYLOAD` admits
(spec/30_encoding.md R44). -/
def Statement (i : Instr) : Prop :=
  ∀ m, i.wfWith m = true → 4 ≤ (encode i).length ∧ (payloadOf (encode i)).length ≤ m

theorem clear : Statement .clear := fun m _ => ⟨by simp [encode], by simp [encode]⟩

theorem load (buf : List Byte) : Statement (.load buf) :=
  fun m h => ⟨by simp [encode], by simpa [encode, Instr.wfWith] using h⟩

theorem store : Statement .store := fun m _ => ⟨by simp [encode], by simp [encode]⟩

theorem insert (d : Option (List Byte)) : Statement (.insert d) := by
  intro m h
  cases d with
  | none => simp [encode]
  | some data => exact ⟨by simp [encode], by simpa [encode, Instr.wfWith] using h⟩

theorem contains (d : Option (List Byte)) : Statement (.contains d) := by
  intro m h
  cases d with
  | none => simp [encode]
  | some data => exact ⟨by simp [encode], by simpa [encode, Instr.wfWith] using h⟩

theorem bitpos (dg : Digest) : Statement (.bitpos dg) :=
  fun m h => ⟨by simp [encode], by simpa [encode, Instr.wfWith] using h⟩

theorem bvset (idx : Nat) : Statement (.bvset idx) := fun m _ => ⟨by simp [encode], by simp [encode]⟩

theorem bvget (idx : Nat) : Statement (.bvget idx) := fun m _ => ⟨by simp [encode], by simp [encode]⟩

theorem bvpop : Statement .bvpop := fun m _ => ⟨by simp [encode], by simp [encode]⟩

theorem popcnt (buf : List Byte) : Statement (.popcnt buf) :=
  fun m h => ⟨by simp [encode], by simpa [encode, Instr.wfWith] using h⟩

theorem u32be (b0 b1 b2 b3 : Byte) : Statement (.u32be b0 b1 b2 b3) :=
  fun m h => ⟨by simp [encode], by simpa [encode, Instr.wfWith] using h⟩

theorem pack (ws : List Word) : Statement (.pack ws) :=
  fun m h => ⟨by simp [encode], by simpa [encode, Instr.wfWith] using h⟩

theorem unpack (buf : List Byte) : Statement (.unpack buf) :=
  fun m h => ⟨by simp [encode], by simpa [encode, Instr.wfWith] using h⟩

end Sys2Proof.Laws.Framing
end

