-- ==== Sys2Proof/Laws/WellFormed.lean ====
section
/-! SUPPORT. What well-formedness says, command by command. -/

namespace Sys2Proof

variable (m : Nat)

theorem wfWith_load (buf : List Byte) : (Instr.load buf).wfWith m = true ↔ buf.length ≤ m := decide_eq_true_iff

theorem wfWith_insert (data : List Byte) : (Instr.insert (some data)).wfWith m = true ↔ data.length ≤ m :=
  decide_eq_true_iff

theorem wfWith_contains (data : List Byte) : (Instr.contains (some data)).wfWith m = true ↔ data.length ≤ m :=
  decide_eq_true_iff

theorem wfWith_bvset (idx : Nat) : (Instr.bvset idx).wfWith m = true ↔ idx < 2 ^ 24 := decide_eq_true_iff

theorem wfWith_bvget (idx : Nat) : (Instr.bvget idx).wfWith m = true ↔ idx < 2 ^ 24 := decide_eq_true_iff

theorem wfWith_popcnt (buf : List Byte) : (Instr.popcnt buf).wfWith m = true ↔ buf.length ≤ m := decide_eq_true_iff

theorem wfWith_pack (ws : List Word) : (Instr.pack ws).wfWith m = true ↔ 8 * ws.length ≤ m := decide_eq_true_iff

theorem wfWith_unpack (buf : List Byte) : (Instr.unpack buf).wfWith m = true ↔ buf.length ≤ m := decide_eq_true_iff

end Sys2Proof
end

