-- ==== Sys2Proof/Tests/Slice0.lean ====
section
/-! SUPPORT. The model's own tests. Expected values come from the spec's encodings and test vectors (spec/95_test_vectors.md,
sections V2.1 to V3.4 and programs P1 to P5), never from the model. The `witness_` theorems show that the hypotheses of
the statements can be met. -/

namespace Sys2Proof.Machine

/-! ### Helpers -/

/-- The state after reset with these frames on the command port. -/
def framed (fs : List Frame) : State := { State.reset with cmdPort := fs }

/-- The state after reset with these bits of the filter set. -/
def withBits (ps : List BitIndex) : State := { State.reset with bv := bfMark emptyBV ps }

/-- The state after reset with a full filter. -/
def fullFilter : State := { State.reset with bv := Vector.replicate 32 0xFFFFFFFFFFFFFFFF }

/-- A state whose collaborator does not answer. -/
def silent : State := { State.reset with digestReplies := false }

/-- A state in which an INSERT of 61 waits for its digest. -/
def waiting : State := { silent with digestWait := some (.insert [0x61]), digPort := [[0x61]] }

/-- What a step has sent on the response port. -/
def responses : Host.Outcome State Fault Refusal → Option (List Frame)
  | .next t => some t.rspPort
  | .fault _ | .refused _ => none

/-- The bytes of the filter that are not zero after a step. -/
def filterBytes : Host.Outcome State Fault Refusal → Option Memory
  | .next t => some (memoryOf t.bv)
  | .fault _ | .refused _ => none

/-- What a step has sent on the digest port. -/
def requests : Host.Outcome State Fault Refusal → Option (List (List Byte))
  | .next t => some t.digPort
  | .fault _ | .refused _ => none

/-- `K_pad`, the test digest of section 3.0. -/
def kPad (data : List Byte) : Digest := Vector.ofFn fun j => data.getD j.val 0

/-- Digest `DC` of section V3.4: `12 34 56 78 9a bc de f0 08 09 .. 1f`. -/
def digestDC : Digest := kPad ([0x12, 0x34, 0x56, 0x78, 0x9a, 0xbc, 0xde, 0xf0, 0x08, 0x09, 0x0a, 0x0b, 0x0c, 0x0d,
  0x0e, 0x0f] ++ [0x10, 0x11, 0x12, 0x13, 0x14, 0x15, 0x16, 0x17, 0x18, 0x19, 0x1a, 0x1b, 0x1c, 0x1d, 0x1e, 0x1f])

/-! ### Well-formedness: an ill-formed term for each check (R45, R46, R55) -/

theorem test_wf_load : (Instr.load [1, 2]).wfWith 1 = false := by decide
theorem test_wf_insert : (Instr.insert (some [1, 2])).wfWith 1 = false := by decide
theorem test_wf_contains : (Instr.contains (some [1, 2])).wfWith 1 = false := by decide
theorem test_wf_bitpos : (Instr.bitpos digestDC).wfWith 31 = false := by decide
theorem test_wf_bvset : (Instr.bvset 16777216).wf = false := by decide
theorem test_wf_bvget : (Instr.bvget 16777216).wf = false := by decide
theorem test_wf_popcnt : (Instr.popcnt [1, 2]).wfWith 1 = false := by decide
theorem test_wf_u32be : (Instr.u32be 1 2 3 4).wfWith 3 = false := by decide
theorem test_wf_pack : (Instr.pack [1]).wfWith 7 = false := by decide
theorem test_wf_unpack : (Instr.unpack [1, 2]).wfWith 1 = false := by decide

/-! ### Decoding: frames written out from R45 and R47, one or more for every command -/

theorem test_decode_clear : decode [0x01, 0x00, 0x00, 0x00] = .command .clear := by decide
theorem test_decode_load : decode [0x02, 0x00, 0x00, 0x00, 0x80, 0x01] = .command (.load [0x80, 0x01]) := by decide
theorem test_decode_store : decode [0x03, 0x00, 0x00, 0x00] = .command .store := by decide
theorem test_decode_insert :
    decode [0x04, 0x00, 0x00, 0x00, 0x61, 0x62] = .command (.insert (some [0x61, 0x62])) := by decide
theorem test_decode_insert_empty : decode [0x04, 0x00, 0x00, 0x00] = .command (.insert (some [])) := by decide
theorem test_decode_insert_absent : decode [0x04, 0x00, 0x00, 0x01] = .command (.insert none) := by decide
theorem test_decode_contains : decode [0x05, 0x00, 0x00, 0x00, 0x61] = .command (.contains (some [0x61])) := by decide
theorem test_decode_contains_absent : decode [0x05, 0x00, 0x00, 0x01] = .command (.contains none) := by decide
theorem test_decode_bitpos : decode ([0x06, 0x00, 0x00, 0x00, 0x12, 0x34, 0x56, 0x78, 0x9a, 0xbc, 0xde, 0xf0] ++
    [0x08, 0x09, 0x0a, 0x0b, 0x0c, 0x0d, 0x0e, 0x0f, 0x10, 0x11, 0x12, 0x13, 0x14, 0x15, 0x16, 0x17] ++
    [0x18, 0x19, 0x1a, 0x1b, 0x1c, 0x1d, 0x1e, 0x1f]) = .command (.bitpos digestDC) := by decide
theorem test_decode_bvset : decode [0x10, 0x00, 0x07, 0xff] = .command (.bvset 2047) := by decide
theorem test_decode_bvset_last : decode [0x10, 0xff, 0xff, 0xff] = .command (.bvset 16777215) := by decide
theorem test_decode_bvget : decode [0x11, 0x00, 0x05, 0xcb] = .command (.bvget 1483) := by decide
theorem test_decode_bvpop : decode [0x12, 0x00, 0x00, 0x00] = .command .bvpop := by decide
theorem test_decode_popcnt :
    decode [0x20, 0x00, 0x00, 0x00, 0xff, 0x00, 0xf0] = .command (.popcnt [0xff, 0x00, 0xf0]) := by decide
theorem test_decode_u32be : decode [0x21, 0x00, 0x00, 0x00, 0x12, 0x34, 0x56, 0x78] =
    .command (.u32be 0x12 0x34 0x56 0x78) := by decide
theorem test_decode_pack : decode ([0x22, 0x00, 0x00, 0x00, 0x01, 0x02, 0x03, 0x04, 0x05, 0x06, 0x07, 0x08] ++
    [0x11, 0x12, 0x13, 0x14, 0x15, 0x16, 0x17, 0x18]) =
    .command (.pack [0x0102030405060708, 0x1112131415161718]) := by decide
theorem test_decode_unpack :
    decode [0x23, 0x00, 0x00, 0x00, 0x01, 0x02, 0x03] = .command (.unpack [0x01, 0x02, 0x03]) := by decide

/-- The illegal frames of V2.8, by the reason the decoder names. -/
theorem test_decode_too_short : ∀ f ∈ ([[], [0x01], [0x01, 0x00], [0x01, 0x00, 0x00]] : List Frame),
    decode f = .illegal .tooShort := by decide
theorem test_decode_unassigned : ∀ op ∈ ([0x00, 0x07, 0x0f, 0x13, 0x1f, 0x24, 0xff] : List Byte),
    decode [op, 0x00, 0x00, 0x00] = .illegal .opcodeUnassigned := by decide
theorem test_decode_arg_reserved : ∀ f ∈ ([[0x01, 0, 0, 0x01], [0x03, 0x80, 0, 0], [0x04, 0, 0, 0x02], [0x04, 0, 0, 0x03],
    [0x05, 0, 0x01, 0], [0x12, 0, 0, 0x01], [0x20, 0, 0, 0x01], [0x21, 0, 0, 0x01, 0x12, 0x34, 0x56, 0x78],
    [0x23, 0, 0, 0x01]] : List Frame), decode f = .illegal .argReserved := by decide
theorem test_decode_payload_length : ∀ f ∈ ([[0x01, 0, 0, 0, 0], [0x03, 0, 0, 0, 0], [0x04, 0, 0, 0x01, 0],
    [0x05, 0, 0, 0x01, 0x61], [0x06, 0, 0, 0], [0x10, 0, 0, 0, 0], [0x11, 0, 0, 0, 0], [0x12, 0, 0, 0, 0],
    [0x21, 0, 0, 0, 0x12, 0x34, 0x56], [0x22, 0, 0, 0, 1, 2, 3, 4, 5, 6, 7]] : List Frame),
    decode f = .illegal .payloadLength := by decide
theorem test_decode_payload_too_long : decodeWith 2 [0x20, 0, 0, 0, 1, 2, 3] = .illegal .payloadTooLong := by decide

/-- No header matches two rows of the opcode map: two rows differ in a bit that both masks look at. -/
theorem test_opcode_rows_disjoint : opcodeTable.Pairwise fun a b =>
    a.headerMatch &&& (a.headerMask &&& b.headerMask) ≠ b.headerMatch &&& (a.headerMask &&& b.headerMask) := by decide

/-! ### One step of each command -/

/-- From any state CLEAR answers `00` and leaves no bit (R75). -/
theorem test_clear : responses (step { fullFilter with cmdPort := [[0x01, 0, 0, 0]] }) = some [[0x00]] ∧
    filterBytes (step { fullFilter with cmdPort := [[0x01, 0, 0, 0]] }) = some [] := by decide

set_option maxRecDepth 10000 in
/-- LOAD of 256 bytes makes byte `j` of the filter byte `j` of the payload (P2 step 13: byte 127 is `aa`). -/
theorem test_load : filterBytes (exec (.load (List.replicate 127 0 ++ 0xaa :: List.replicate 128 0)) fullFilter) =
    some [(127, 0xaa)] := by decide

set_option maxRecDepth 10000 in
/-- 255 bytes are `InvalidLength` and keep the filter (P2 step 5, D7). -/
theorem test_load_short : responses (exec (.load (List.replicate 255 0xff)) (withBits [2047])) = some [[0x02]] ∧
    filterBytes (exec (.load (List.replicate 255 0xff)) (withBits [2047])) = some [(255, 0x01)] := by decide

set_option maxRecDepth 10000 in
/-- After BVSET 0 and BVSET 2047 the image is `80`, 254 times `00`, `01` (P2 step 7). -/
theorem test_store : responses (step { withBits [0, 2047] with cmdPort := [[0x03, 0, 0, 0]] }) =
    some [0x00 :: 0x80 :: (List.replicate 254 0x00 ++ [0x01])] := by decide

/-- INSERT of present data answers `00` and sends exactly the data as digest request, for any hash. -/
theorem test_insert : responses (step (framed [[0x04, 0, 0, 0, 0x61, 0x62]])) = some [[0x00]] ∧
    requests (step (framed [[0x04, 0, 0, 0, 0x61, 0x62]])) = some [[0x61, 0x62]] := by decide

/-- The filter that INSERT leaves, with `K_pad` as the hash (P1 step 2, P4 step 2, P3 step 6). -/
theorem test_insert_bits : memoryOf (bfInsert kPad emptyBV (some [0x12, 0x34, 0x56, 0x78, 0x9a, 0xbc])) =
      [(48, 0x01), (168, 0x10), (185, 0x10)] ∧
    memoryOf (bfInsert kPad emptyBV (some [0x07, 0xff, 0x00, 0x01, 0x04, 0x00])) = [(0, 0x80), (127, 0x01), (255, 0x02)] ∧
    memoryOf (bfInsert kPad emptyBV (some [])) = [(255, 0x01)] := by decide

/-- CONTAINS answers true on the full filter for every hash, and `absent` false all the same (P5 steps 2 and 3). -/
theorem test_contains_absent_full :
    responses (step { fullFilter with cmdPort := [[0x05, 0, 0, 0x01]] }) = some [[0x00, 0x00]] ∧
    requests (step { fullFilter with cmdPort := [[0x05, 0, 0, 0x01]] }) = some [] := by decide

/-- Two of three bits are not enough (P1 steps 3 and 4), and a false positive is one (P3 steps 11 and 12). -/
theorem test_contains_bits :
    bfContains kPad (bfMark emptyBV [1483, 391, 1347]) (some [0x12, 0x34, 0x56, 0x78, 0x9a, 0xbc]) = true ∧
    bfContains kPad (bfMark emptyBV [1483, 391, 1347]) (some [0x12, 0x34, 0x56, 0x78, 0x9a, 0xbd]) = false ∧
    bfContains kPad (bfMark emptyBV [2047]) (some [0x08, 0x00]) = true ∧
    bfContains kPad (bfMark emptyBV [2047]) (some [0x00, 0x01]) = false := by decide

/-- The vector of V3.4. -/
theorem test_bitpos : responses (exec (.bitpos digestDC) State.reset) =
    some [[0x00, 0x05, 0xcb, 0x01, 0x87, 0x05, 0x43]] := by decide

/-- The top five bits of a pair are discarded and the order of the pairs is kept (V3.4, digests `DE` and `DD`). -/
theorem test_bitpos_masks :
    responses (exec (.bitpos (kPad [0x07, 0xff, 0x00, 0x01, 0x04, 0x00])) State.reset) =
      some [[0x00, 0x00, 0x00, 0x07, 0xfe, 0x03, 0xff]] ∧
    responses (exec (.bitpos (kPad [0x08, 0x00, 0xf8, 0x00, 0x10, 0x00])) State.reset) =
      some [[0x00, 0x07, 0xff, 0x07, 0xff, 0x07, 0xff]] := by decide

/-- Bit 1483 is the `0x10` bit of byte 185 (V2.1). -/
theorem test_bvset : filterBytes (step (framed [[0x10, 0x00, 0x05, 0xcb]])) = some [(185, 0x10)] := by decide

/-- The first index out of range and the last (V2.3 rows 7 and 9). -/
theorem test_bvset_out_of_range : responses (step (framed [[0x10, 0x00, 0x08, 0x00]])) = some [[0x03]] ∧
    responses (step (framed [[0x10, 0xff, 0xff, 0xff]])) = some [[0x03]] := by decide

/-- Byte 127 with the value `aa` holds bits 1016 and 1018 but not 1017 (P2 steps 15 and 16). -/
theorem test_bvget :
    responses (step { withBits [1016, 1018] with cmdPort := [[0x11, 0x00, 0x03, 0xf8]] }) = some [[0x00, 0x01]] ∧
    responses (step { withBits [1016, 1018] with cmdPort := [[0x11, 0x00, 0x03, 0xf9]] }) = some [[0x00, 0x00]] := by
  decide

theorem test_bvget_out_of_range : responses (step (framed [[0x11, 0x00, 0x08, 0x00]])) = some [[0x03]] := by decide

set_option maxRecDepth 10000 in
/-- The full filter holds 2048 bits (P5 step 4). -/
theorem test_bvpop : responses (step { fullFilter with cmdPort := [[0x12, 0, 0, 0]] }) =
    some [[0x00, 0x00, 0x00, 0x08, 0x00]] := by decide

/-- V2.4. -/
theorem test_popcnt : responses (step (framed [[0x20, 0, 0, 0, 0xff, 0x00, 0xf0]])) =
    some [[0x00, 0x00, 0x00, 0x00, 0x0c]] := by decide

/-- V2.5: a set top bit is no sign. -/
theorem test_u32be : responses (step (framed [[0x21, 0, 0, 0, 0x80, 0x34, 0x56, 0x78]])) =
    some [[0x00, 0x80, 0x34, 0x56, 0x78]] := by decide

/-- V2.5, the function on integers that are no bytes. -/
theorem test_u32_from_integers : bcU32FromBytes (-1) (-1) (-1) (-1) = 0xFFFFFFFF ∧
    bcU32FromBytes (-128) 0 0 0 = 0x80000000 ∧ bcU32FromBytes 256 0 0 1 = 1 := by decide

/-- V2.6. -/
theorem test_pack : responses (step (framed [[0x22, 0, 0, 0, 1, 2, 3, 4, 5, 6, 7, 8]])) =
    some [[0x00, 1, 2, 3, 4, 5, 6, 7, 8]] := by decide

/-- V2.7: the words of 16 bytes, and the answer on the wire. -/
theorem test_unpack : bcBytesToLongs [0, 1, 2, 3, 4, 5, 6, 7, 8, 9, 10, 11, 12, 13, 14, 15] =
      .ok [0x0001020304050607, 0x08090A0B0C0D0E0F] ∧
    responses (step (framed [[0x23, 0, 0, 0, 0xff, 0, 0, 0, 0, 0, 0, 1]])) =
      some [[0x00, 0xff, 0, 0, 0, 0, 0, 0, 1]] := by decide

theorem test_unpack_odd_length : responses (step (framed [[0x23, 0, 0, 0, 1, 2, 3]])) = some [[0x02]] := by decide

/-- The function `bv_new` (V2.2). -/
theorem test_bv_new : bvNew 2048 = .ok (List.replicate 32 0) ∧ bvNew 128 = .ok [0, 0] ∧
    bvNew 100 = .error .invalidSize ∧ bvNew 0 = .error .invalidSize ∧ bvNew (-64) = .error .invalidSize := by decide

set_option maxRecDepth 10000 in
/-- V2.1, row 1483, in the word view and the big-integer view. -/
theorem test_views : bfMark emptyBV [1483] = emptyBV.set 23 0x0010000000000000 ∧
    bigInteger (bfMark emptyBV [1483]) = 2 ^ 188 * 2 ^ 188 * 2 ^ 188 := by decide

/-- An illegal frame is answered `ff` alone, and the filter stays (V2.8, V2.9: it wins over `IndexOutOfRange`). -/
theorem test_illegal : responses (step { withBits [2047] with cmdPort := [[0x10, 0x00, 0x08, 0x00, 0x00]] }) =
      some [[0xff]] ∧
    filterBytes (step { withBits [2047] with cmdPort := [[0x10, 0x00, 0x08, 0x00, 0x00]] }) = some [(255, 0x01)] := by
  decide

/-! ### Words of the opcode table -/

set_option maxRecDepth 10000 in
/-- The word of every row, with zeros for its operands, decodes to the row's command. -/
theorem test_table_words : (opcodeTable.map fun r => (decodeTableWord 32 r.headerMatch).map Instr.mnemonic) =
    opcodeTable.map fun r => some r.mnemonic := by decide

set_option maxRecDepth 10000 in
/-- The very next step runs it, and answers with status OK. -/
theorem test_table_steps : ∀ r ∈ opcodeTable,
    ((responses (step (State.reset.withFetchWord 32 r.headerMatch))).map fun p => p.map (List.take 1)) =
      some [[0x00]] := by decide

/-- Operand bits of the header and payload bytes after it are read as the table numbers them. -/
theorem test_table_operands : decodeTableWord 32 0x100005CB = some (.bvset 1483) ∧
    decodeTableWord 64 0x7856341221000000 = some (.u32be 0x12 0x34 0x56 0x78) := by decide

/-! ### The textual spelling (the lines of R57, and R58) -/

theorem test_assemble_names : assembleLine "CLEAR".toList = some .clear ∧ assembleLine "BF.NEW".toList = some .clear ∧
    assembleLine "INSERT   absent".toList = some (.insert none) ∧
    assembleLine "BVSET    2047".toList = some (.bvset 2047) := by decide

theorem test_assemble_bytes :
    assembleLine "INSERT   x\"616263\"            # present data".toList = some (.insert (some [0x61, 0x62, 0x63])) ∧
    assembleLine "BF.INSERT x\"\"".toList = some (.insert (some [])) := by decide

theorem test_assemble_numbers :
    assembleLine "U32BE    0x12 0x34 0x56 0x78".toList = some (.u32be 0x12 0x34 0x56 0x78) ∧
    assembleLine "PACK     0x0102030405060708 0x1112131415161718".toList =
      some (.pack [0x0102030405060708, 0x1112131415161718]) := by decide

/-- The operands of R57's lines, written. -/
theorem test_operand_text : operandText (.insert (some [0x61, 0x62, 0x63])) = "x\"616263\"".toList ∧
    operandText (.insert none) = "absent".toList ∧ operandText (.bvset 2047) = "2047".toList ∧
    operandText (.bvget 0) = "0".toList ∧ operandText (.u32be 0x12 0x34 0x56 0x78) = "0x12 0x34 0x56 0x78".toList ∧
    operandText (.pack [0x0102030405060708]) = "0x0102030405060708".toList := by decide

/-- What R57 does not spell gives no command. -/
theorem test_assemble_refuses : ∀ l ∈ ["", "# CLEAR", "clear", "CLEAR 1", "BVSET", "BVSET x", "BVSET 16777216",
    "INSERT 616263", "INSERT x\"6\"", "U32BE 0x1 0x2 0x3 0x4"], assembleLine l.toList = none := by decide

/-! ### Witnesses: the hypotheses of the statements can be met

Each is named after its statement. `witness_load` also serves FromBytesAssemblesWords, `witness_unpack` also
CodecFunctionsAreInverse. A statement without one has no hypothesis. -/

/-- Commands at the bound of their operands are well formed, for the smallest `MAX_PAYLOAD` that admits them. -/
theorem witness_decodeOfEncode : (Instr.bvset 16777215).wfWith 0 = true ∧ (Instr.pack [1, 2]).wfWith 16 = true ∧
    (Instr.bitpos digestDC).wfWith 32 = true ∧ (Instr.load [1]).wfWith 1 = true := by decide

theorem witness_encodeOfDecode : decodeWith 8 [0x22, 0, 0, 0, 1, 2, 3, 4, 5, 6, 7, 8] =
    .command (.pack [0x0102030405060708]) ∧ decodeWith 0 [0x11, 0xff, 0xff, 0xff] = .command (.bvget 16777215) := by
  decide

/-- A row selects a frame, no row selects another, and the frames whose fields are read decode. -/
theorem witness_opcodeMap : (∃ r ∈ opcodeTable, r.selects [0x12, 0, 0, 0] = true) ∧
    (∀ r ∈ opcodeTable, r.selects [0x12, 0, 0, 1] = false) ∧
    decodeWith 0 [0x04, 0, 0, 1] = .command (.insert none) ∧ decodeWith 0 [0x05, 0, 0, 0] = .command (.contains (some [])) ∧
    decodeWith 0 [0x10, 0, 0x08, 0] = .command (.bvset 2048) ∧ decodeWith 0 [0x11, 0, 0x07, 0xff] = .command (.bvget 2047) := by
  decide

theorem witness_illegalFrames : (framed [[0x00, 0, 0, 0], [0x03, 0, 0, 0]]).digestWait = none ∧
    (framed [[0x00, 0, 0, 0], [0x03, 0, 0, 0]]).cmdPort = [0x00, 0, 0, 0] :: [[0x03, 0, 0, 0]] ∧
    decode [0x00, 0, 0, 0] = .illegal .opcodeUnassigned := by decide

/-- Two commands of one mnemonic with different operands, at different filters, answered by the same frame. -/
theorem witness_responseFrame : (Instr.bvget 0).wf = true ∧ (Instr.bvget 16777215).wf = true ∧
    (Instr.bvget 2).wf = true ∧ (Instr.bvget 0).mnemonic = (Instr.bvget 2).mnemonic ∧
    responseFrame (abstractCommand kPad emptyBV (.bvget 0)).2 =
      responseFrame (abstractCommand kPad (bfMark emptyBV [1]) (.bvget 2)).2 ∧
    (Instr.popcnt [0x01]).wf = true ∧ (Instr.popcnt [0x80]).wf = true ∧
    responseFrame (abstractCommand kPad emptyBV (.popcnt [0x01])).2 =
      responseFrame (abstractCommand kPad emptyBV (.popcnt [0x80])).2 := by decide

/-- Aliases that spell a command, without and with operands, and a command whose operands can be written. -/
theorem witness_aliases : assembleLine "BV.NEW".toList = some .clear ∧
    assembleLine "BV.SET 16777215".toList = some (.bvset 16777215) ∧
    (Instr.bvset 16777215).mnemonic = "BVSET" ∧ (Instr.bvset 16777215).wf = true := by decide

/-- A command at the bound of its operand, and a line without a comment. -/
theorem witness_text : (Instr.bvget 16777215).wf = true ∧ '#' ∉ "BVGET 0 ".toList := by decide

theorem witness_stepRuns : (framed [[0x12, 0, 0, 0], [0x03, 0, 0, 0]]).digestWait = none ∧
    (framed [[0x12, 0, 0, 0], [0x03, 0, 0, 0]]).cmdPort = [0x12, 0, 0, 0] :: [[0x03, 0, 0, 0]] ∧
    decode [0x12, 0, 0, 0] = .command .bvpop := by decide

theorem witness_idle : State.reset.digestWait = none ∧ State.reset.cmdPort = [] := ⟨rfl, rfl⟩

theorem witness_missingReply : silent.digestWait = none ∧ silent.digestReplies = false := ⟨rfl, rfl⟩

/-- The one state of affairs in which a step stops, and the step that leads to it. -/
theorem witness_stop : waiting.digestWait ≠ none ∧ waiting.digestReplies = false ∧
    step waiting = .fault .digestNoReply ∧
    step { silent with cmdPort := [[0x04, 0, 0, 0, 0x61]] } = .next waiting := ⟨by decide, rfl, rfl, rfl⟩

/-- A command that completes, a waiting command that completes, and a command that comes to wait. -/
theorem witness_oneResponse : (framed [[0x04, 0, 0, 0, 0x61]]).digestWait = none ∧
    (framed [[0x04, 0, 0, 0, 0x61]]).digestReplies = true ∧
    (∃ t, step { waiting with digestReplies := true } = .next t) ∧
    (∃ t, exec (.insert (some [0x61])) silent = .next t ∧ t.digestWait ≠ none) :=
  ⟨rfl, rfl, ⟨_, rfl⟩, ⟨_, rfl, by decide⟩⟩

/-- Three frames, one of them illegal, and one more behind them. -/
theorem witness_run : (framed ([[0x12, 0, 0, 0], [0xff], [0x03, 0, 0, 0]] ++ [[0x01, 0, 0, 0]])).digestWait = none ∧
    (framed ([[0x12, 0, 0, 0], [0xff], [0x03, 0, 0, 0]] ++ [[0x01, 0, 0, 0]])).digestReplies = true ∧
    (framed ([[0x12, 0, 0, 0], [0xff], [0x03, 0, 0, 0]] ++ [[0x01, 0, 0, 0]])).cmdPort =
      [[0x12, 0, 0, 0], [0xff], [0x03, 0, 0, 0]] ++ [[0x01, 0, 0, 0]] := ⟨rfl, rfl, rfl⟩

/-- Each status that can be sent is sent. -/
theorem witness_status : responses (exec (.load []) State.reset) = some [0x02 :: []] ∧
    responses (exec (.unpack [1]) State.reset) = some [0x02 :: []] ∧
    responses (exec (.bvset 2048) State.reset) = some [0x03 :: []] ∧
    responses (exec (.bvget 2048) State.reset) = some [0x03 :: []] ∧
    responses (exec (.bvget 2047) State.reset) = some [0x00 :: [0x00]] ∧
    responses (step (framed [[]])) = some [0xff :: []] := by decide

set_option maxRecDepth 10000 in
theorem witness_errors : ∃ t, (framed [[0x10, 0, 0x08, 0]]).digestWait = none ∧
    (framed [[0x10, 0, 0x08, 0]]).cmdPort = [0x10, 0, 0x08, 0] :: [] ∧ step (framed [[0x10, 0, 0x08, 0]]) = .next t ∧
    t.rspPort = (framed [[0x10, 0, 0x08, 0]]).rspPort ++ [0x03 :: []] ∧ (0x03 : Byte) ≠ 0x00 :=
  ⟨{ State.reset with rspPort := [[0x03]] }, rfl, rfl, rfl, rfl, by decide⟩

/-- Every premise of the digest statement: with and without data, a command that comes to wait, a waiting command. -/
theorem witness_digest : (∃ t, exec (.insert (some [0x61])) State.reset = .next t) ∧
    (∃ t, exec (.contains (some [])) silent = .next t ∧ t.digestWait ≠ silent.digestWait) ∧
    (∃ t, exec (.insert none) State.reset = .next t) ∧
    (∃ t, step { waiting with digestReplies := true } = .next t) := ⟨⟨_, rfl⟩, ⟨_, rfl, by decide⟩, ⟨_, rfl⟩, ⟨_, rfl⟩⟩

/-- A command that does not write, one that does not read, and two filters that agree in bit 2047 and differ. -/
theorem witness_access : Instr.bvpop.writesBV = false ∧ (Instr.bvset 2047).readsBV = false ∧
    (∃ t, exec (.bvset 2047) State.reset = .next t) ∧
    bitAt State.reset.bv ⟨2047, by decide⟩ = bitAt (bfMark emptyBV [0]) ⟨2047, by decide⟩ ∧
    State.reset.bv ≠ bfMark emptyBV [0] ∧
    ∃ t, exec (.bvget 2047) State.reset = .next t := ⟨rfl, rfl, ⟨_, rfl⟩, by decide, by decide, ⟨_, rfl⟩⟩

/-- For every digest there are two different filters that agree in its bits: it has three bits, so one of the bits 0 to
3 is none of them. -/
theorem witness_access_contains (dg : Digest) :
    ∃ v : BV, v ≠ emptyBV ∧ ∀ i, DigestBit dg i → bitAt emptyBV i = bitAt v i := by
  obtain ⟨k, hk⟩ : ∃ k : BitIndex, ¬ DigestBit dg k := by
    by_contra h
    have h0 := Classical.not_not.1 (not_exists.1 h 0)
    have h1 := Classical.not_not.1 (not_exists.1 h 1)
    have h2 := Classical.not_not.1 (not_exists.1 h 2)
    have h3 := Classical.not_not.1 (not_exists.1 h 3)
    simp only [DigestBit, Fin.val_zero, Fin.val_one, Fin.val_two, show ((3 : BitIndex).val) = 3 from rfl] at h0 h1 h2 h3
    omega
  refine ⟨setBit emptyBV k, fun h => ?_, fun i hi => ?_⟩
  · have := congrArg (bitAt · k) h
    simp [bitAt_setBit] at this
  · have : i ≠ k := fun e => hk (e ▸ hi)
    simp [bitAt_setBit, this]

/-- CONTAINS at two such filters. -/
theorem witness_access_contains_runs (v : BV) : (∃ t, exec (.contains (some [0x61])) State.reset = .next t) ∧
    ∃ u, exec (.contains (some [0x61])) { State.reset with bv := v } = .next u := ⟨⟨_, rfl⟩, ⟨_, rfl⟩⟩

/-- A bit that each writing command changes, at the last index. -/
theorem witness_access_bits : (∃ t, exec (.bvset 2047) State.reset = .next t ∧ bitAt t.bv 2047 ≠ bitAt State.reset.bv 2047) ∧
    ∃ t, exec .clear (withBits [2047]) = .next t ∧ bitAt t.bv 2047 ≠ bitAt (withBits [2047]).bv 2047 :=
  ⟨⟨{ withBits [2047] with rspPort := [[0x00]] }, rfl, by decide⟩, ⟨_, rfl, by decide⟩⟩

theorem witness_repeat : State.reset.digestReplies = true ∧ Instr.store.writesBV = false ∧ Instr.clear.writesBV = true ∧
    (∃ t u, exec .clear fullFilter = .next t ∧ exec .clear t = .next u) ∧
    bitAt (withBits [2047]).bv ⟨2047, by decide⟩ = true ∧ (∃ t, exec (.bvset 2047) (withBits [2047]) = .next t) :=
  ⟨rfl, rfl, rfl, ⟨_, _, rfl, rfl⟩, by decide, ⟨_, rfl⟩⟩

theorem witness_commute : State.reset.digestReplies = true ∧ (Instr.contains (some [])).writesBV = false ∧
    Instr.bvpop.writesBV = false := ⟨rfl, rfl, rfl⟩

/-- A filter with no bit, and a bit that CLEAR turns from 1 into 0. -/
theorem witness_clear : (∀ i, bitAt State.reset.bv i = false) ∧
    ∃ t, exec .clear (withBits [2047]) = .next t ∧ bitAt (withBits [2047]).bv 2047 = true ∧ bitAt t.bv 2047 = false :=
  ⟨fun i => bitAt_emptyBV i, _, rfl, by decide, by decide⟩

set_option maxRecDepth 10000 in
/-- Payload lengths at and beside the one that LOAD accepts, and a vector with the bytes of the payload. -/
theorem witness_load : (List.replicate 256 (0xff : Byte)).length = 256 ∧ (List.replicate 255 (0xff : Byte)).length ≠ 256 ∧
    (List.replicate 257 (0xff : Byte)).length ≠ 256 ∧ ([] : List Byte).length ≠ 256 ∧
    (Vector.replicate 256 (0xff : Byte)).toList = List.replicate 256 0xff ∧ State.reset.digestReplies = true :=
  ⟨List.length_replicate, by rw [List.length_replicate]; decide, by rw [List.length_replicate]; decide, by decide,
    by simp only [Vector.toList_replicate], rfl⟩

theorem witness_store : ∀ i, bitAt State.reset.bv i = false := fun i => bitAt_emptyBV i

theorem witness_insert_contains : State.reset.digestReplies = true ∧ fullFilter.digestReplies = true := ⟨rfl, rfl⟩

/-- The last index in range, the first out of range, and the last that the frame can carry. -/
theorem witness_bvset_bvget : 2047 < 2048 ∧ 2048 ≤ 2048 ∧ 2048 ≤ 16777215 ∧ 16777215 < 2 ^ 24 := by decide

theorem witness_bvNew : ((0 : Int) ≤ 0 ∨ (0 : Int) % 64 ≠ 0) ∧ ((-64 : Int) ≤ 0 ∨ (-64 : Int) % 64 ≠ 0) ∧
    ((65 : Int) ≤ 0 ∨ (65 : Int) % 64 ≠ 0) ∧ 0 < 32 := by decide

/-- The integers at the edges of the range. -/
theorem witness_setAndGet : ((-1 : Int) < 0 ∨ 2048 ≤ (-1 : Int)) ∧ ((2048 : Int) < 0 ∨ 2048 ≤ (2048 : Int)) ∧
    ((0 : Int) ≤ 0 ∧ (0 : Int) < 2048) ∧ ((0 : Int) ≤ 2047 ∧ (2047 : Int) < 2048) := by decide

theorem witness_roundTrip : (List.replicate 256 (0x5a : Byte)).length = 256 := List.length_replicate

theorem witness_setAndGetLaws : 2047 < 2048 ∧ 0 < 2048 ∧ (0 : Nat) ≠ 2047 ∧
    bvGet (bfMark emptyBV [0]) 0 = .ok true := by decide

set_option maxRecDepth 10000 in
theorem witness_spaces : (∃ t, exec (.bvset 2047) State.reset = .next t) ∧ 2047 < 2048 ∧
    (∃ t, exec (.load (List.replicate 256 0x5a)) State.reset = .next t) ∧ (List.replicate 256 (0x5a : Byte)).length = 256 :=
  ⟨⟨_, rfl⟩, by decide, ⟨_, conclude_abstract (.load (List.replicate 256 0x5a)) State.reset⟩, List.length_replicate⟩

theorem witness_bvpop : State.reset.digestReplies = true ∧ (∀ i, bitAt State.reset.bv i = false) ∧
    ∃ t, exec (.insert (some [0x61])) State.reset = .next t := ⟨rfl, fun i => bitAt_emptyBV i, ⟨_, rfl⟩⟩

theorem witness_popcnt : (Instr.popcnt [0xff, 0x00, 0xf0]).wf = true := by decide

theorem witness_pack : 1 < [(1 : Word), 2].length ∧ 7 < 8 := by decide

theorem witness_unpack : [(1 : Byte), 2, 3, 4, 5, 6, 7, 8].length % 8 = 0 ∧ ([] : List Byte).length % 8 = 0 ∧
    [(1 : Byte), 2, 3, 4, 5, 6, 7].length % 8 ≠ 0 := by decide

set_option maxRecDepth 10000 in
/-- A lifetime with a step of the engine and an event of the host in it. -/
theorem witness_lifetime : ∃ t, Lifetime (framed [[0x10, 0, 0x07, 0xff]]) t ∧ t.rx = [0x01] ∧
    bitAt t.bv 2047 = true :=
  ⟨{ withBits [2047] with rspPort := [[0x00]], rx := [0x01] }, .host (.byte 0x01) (.engine .here (fun i h => by
    have : (framed [[0x10, 0, 0x07, 0xff]]).nextCommand = some (.bvset 2047) := by decide
    rw [this] at h; cases h; rfl) (u := { withBits [2047] with rspPort := [[0x00]] }) rfl) (by decide), rfl, by decide⟩

theorem witness_setBits : (Instr.bvset 0).endsLifetime = false ∧ Instr.clear.endsLifetime = true ∧
    (∃ t, exec (.bvset 0) (withBits [2047]) = .next t) ∧ bitAt (withBits [2047]).bv 2047 = true :=
  ⟨rfl, rfl, ⟨_, rfl⟩, by decide⟩

/-- INSERT answered at once, and answered after a wait; the lifetime after it; and the reply for CONTAINS. -/
theorem witness_inserted : (∃ s1, State.reset.digestReplies = true ∧ exec (.insert (some [0x61])) State.reset = .next s1 ∧
      Lifetime s1 s1 ∧ s1.digestReplies = true) ∧
    ∃ s1, waiting.digestWait = some (.insert [0x61]) ∧ step { waiting with digestReplies := true } = .next s1 ∧
      Lifetime s1 s1 ∧ s1.digestReplies = true := ⟨⟨_, rfl, rfl, .here, rfl⟩, ⟨_, rfl, rfl, .here, rfl⟩⟩

theorem witness_emptyFilter : (∀ i, bitAt State.reset.bv i = false) ∧ State.reset.digestReplies = true :=
  ⟨fun i => bitAt_emptyBV i, rfl⟩

/-- Two runs over the same set of data in another order and multiplicity. -/
theorem witness_insertOrder : (∀ x ∈ [[0x61], ([] : List Byte)], x.length ≤ Config.maxPayload) ∧
    (∀ x : List Byte, x ∈ [[0x61], []] ↔ x ∈ [([] : List Byte), [0x61], []]) ∧
    State.reset.digestWait = none ∧ State.reset.digestReplies = true ∧
    (∃ t, Sys2Proof.core.run 2
      { State.reset with cmdPort := [[0x61], []].map fun x => encode (.insert (some x)) } = .next t) ∧
    ∃ u, Sys2Proof.core.run 3
      { State.reset with cmdPort := [[], [0x61], []].map fun x => encode (.insert (some x)) } = .next u :=
  ⟨by decide, fun x => by simp; tauto, rfl, rfl, ⟨_, rfl⟩, ⟨_, rfl⟩⟩

theorem witness_filterCommands : (Instr.bitpos digestDC).mnemonic ∈ ["INSERT", "CONTAINS", "BITPOS"] ∧
    (Instr.insert (some [])).mnemonic ∈ ["INSERT", "CONTAINS", "BITPOS"] ∧
    (Instr.contains none).mnemonic ∈ ["INSERT", "CONTAINS", "BITPOS"] ∧ State.reset.digestReplies = true := by decide

theorem witness_loadStore : (List.replicate 256 (0x5a : Byte)).length = 256 ∧
    (framed [encode (.load (List.replicate 256 0x5a)), encode .store]).digestWait = none ∧
    (framed [encode (.load (List.replicate 256 0x5a)), encode .store]).cmdPort =
      encode (.load (List.replicate 256 0x5a)) :: encode .store :: [] := ⟨List.length_replicate, rfl, rfl⟩

/-- The invariant holds of a state in which a command waits, and a step leads on from it. -/
theorem witness_portsInv : PortsInv waiting ∧ PortsInv { waiting with digestReplies := true } ∧
    ∃ t, step { waiting with digestReplies := true } = .next t := by
  refine ⟨⟨by decide, by decide, ?_⟩, ⟨by decide, by decide, ?_⟩, ⟨_, rfl⟩⟩ <;>
    · intro w h
      cases h
      rfl

theorem witness_reset : ∃ t, exec .clear fullFilter = .next t := ⟨_, rfl⟩

end Sys2Proof.Machine
end

/-! PROOFS. The state of the engine: which commands keep the set bits of the filter (spec/10_state.md R23), how its word,
bit and byte views agree (R12, R13), and what reset leaves (R24). -/

namespace Sys2Proof.Machine

/-! ### Set bits within a filter lifetime (R23) -/

/-- At the abstract level only CLEAR and a LOAD of 256 bytes can turn a bit off: INSERT and BVSET only set bits, an error
keeps the filter, and the other commands do not write it. -/
theorem bitAt_abstractCommand_of_not_endsLifetime (hash : List Byte → Digest) {v : BV} {i : Instr} {j : BitIndex}
    (hi : i.endsLifetime = false) (hj : bitAt v j = true) : bitAt (abstractCommand hash v i).1 j = true := by
  cases i with
  | clear => cases hi
  | load buf =>
    have hlen : buf.length ≠ 256 := by simpa [Instr.endsLifetime] using hi
    simpa [abstractCommand, abstractConclusion, bvFromBytes_error buf hlen, Except.map] using hj
  | insert d =>
    cases d with
    | none => exact hj
    | some data => exact (bitAt_bfMark v _ j).mpr (.inl hj)
  | bvset idx =>
    simp only [abstractCommand, abstractConclusion, bvSet, bitIndex_nat]
    by_cases hidx : idx < 2048
    · simp [hidx, Except.map, bitAt_setBit, hj]
    · simpa [hidx, Except.map] using hj
  | bvget idx =>
    simp only [abstractCommand, abstractConclusion]
    cases bvGet v idx <;> exact hj
  | unpack buf =>
    simp only [abstractCommand, abstractConclusion]
    cases bcBytesToLongs buf <;> exact hj
  | store | contains _ | bitpos _ | bvpop | popcnt _ | u32be _ _ _ _ | pack _ => exact hj

theorem DigestWait.command_endsLifetime (w : DigestWait) : w.command.endsLifetime = false := by
  cases w <;> rfl

/-- A command that ends no lifetime keeps every set bit, whether it is answered or comes to wait for its digest. -/
theorem bitAt_exec_of_not_endsLifetime {i : Instr} {s t : State} {j : BitIndex} (hi : i.endsLifetime = false)
    (h : exec i s = .next t) (hj : bitAt s.bv j = true) : bitAt t.bv j = true := by
  obtain hanswered | ⟨w, -, -, hwaits⟩ := exec_cases i s
  · cases hanswered.symm.trans h
    exact bitAt_abstractCommand_of_not_endsLifetime _ hi hj
  · cases hwaits.symm.trans h
    exact hj

theorem nextCommand_of_decode {s : State} {f : Frame} {rest : List Frame} {i : Instr} (hw : s.digestWait = none)
    (hc : s.cmdPort = f :: rest) (hd : decode f = .command i) : s.nextCommand = some i := by
  simp [State.nextCommand, hw, hc, hd]

/-- A step that takes no CLEAR and no LOAD of 256 bytes keeps every set bit; so does one that completes a waiting
command. -/
theorem bitAt_step_of_not_endsLifetime {s t : State} {j : BitIndex}
    (hnext : ∀ i, s.nextCommand = some i → i.endsLifetime = false) (h : step s = .next t)
    (hj : bitAt s.bv j = true) : bitAt t.bv j = true := by
  obtain ⟨-, -, rfl⟩ | ⟨f, rest, r, -, -, -, rfl⟩ | ⟨f, rest, i, hw, hc, hd, hexec⟩ | ⟨w, -, -, rfl⟩ := step_cases h
  · exact hj
  · exact hj
  · exact bitAt_exec_of_not_endsLifetime (hnext i (nextCommand_of_decode hw hc hd)) hexec hj
  · exact bitAt_abstractCommand_of_not_endsLifetime _ w.command_endsLifetime hj

/-- Along every run within one lifetime, a bit that is set stays set. -/
theorem Lifetime.keeps_set_bit {s t : State} (h : Lifetime s t) {j : BitIndex} (hj : bitAt s.bv j = true) :
    bitAt t.bv j = true := by
  induction h with
  | here => exact hj
  | engine _ hnext hstep ih => exact bitAt_step_of_not_endsLifetime hnext hstep ih
  | host e _ he ih => rwa [State.applyHost_bv _ e he]

theorem exec_clear (s : State) : exec .clear s = .next ((s.setBV emptyBV).respond .none) := rfl

theorem exec_load_of_ok {buf : List Byte} {v : BV} (h : bvFromBytes buf = .ok v) (s : State) :
    exec (.load buf) s = .next ((s.setBV v).respond .none) := by
  rw [exec, execLoad, h]
  rfl

/-- A command that begins a new lifetime does not look at the old filter. -/
theorem exec_of_endsLifetime_setBV {i : Instr} (hi : i.endsLifetime = true) (s : State) (v : BV) :
    exec i s = exec i (s.setBV v) := by
  cases i with
  | clear => rfl
  | load buf =>
    obtain ⟨w, hw, -⟩ := bvFromBytes_ok buf (by simpa [Instr.endsLifetime] using hi)
    rw [exec_load_of_ok hw, exec_load_of_ok hw]
    rfl
  | _ => cases hi

/-- Settles O45: each command that ends no lifetime keeps the set bits, hence so does every run within a lifetime, by
induction over the run. -/
theorem setBitsStayWithinALifetime : Obligations.SetBitsStayWithinALifetime :=
  ⟨fun _ _ _ hi h _ hj => bitAt_exec_of_not_endsLifetime hi h hj, fun _ _ h _ hj => h.keeps_set_bit hj,
    fun _ s v hi => exec_of_endsLifetime_setBV hi s v, fun _ _ => rfl⟩

/-! ### The word, bit and byte views (R12, R13) -/

theorem byteAt_toNat (v : BV) (j : Fin 256) :
    (byteAt v j).toNat = (v[j.val / 8]'(by omega)).toNat / 2 ^ (56 - 8 * (j.val % 8)) % 2 ^ 8 := by
  rw [byteAt, BitVec.extractLsb'_toNat, Nat.shiftRight_eq_div_pow]

/-- Byte `m` of word `k` is `B[8k + m]` (R13). -/
theorem byteAt_toNat_of_word (v : BV) (k : Fin 32) (m : Nat) (hm : m < 8) :
    (byteAt v ⟨8 * k.val + m, by omega⟩).toNat = v[k].toNat / 2 ^ (56 - 8 * m) % 2 ^ 8 := by
  have hdiv : (8 * k.val + m) / 8 = k.val := by omega
  have hmod : (8 * k.val + m) % 8 = m := by omega
  simp only [byteAt_toNat, hdiv, hmod, Fin.getElem_fin]

/-- A 64-bit number is put together again from its eight bytes, most significant first. -/
theorem eq_sum_bytes {n : Nat} (h : n < 2 ^ 64) :
    n = n / 2 ^ 56 % 2 ^ 8 * 2 ^ 56 + n / 2 ^ 48 % 2 ^ 8 * 2 ^ 48 + n / 2 ^ 40 % 2 ^ 8 * 2 ^ 40 +
      n / 2 ^ 32 % 2 ^ 8 * 2 ^ 32 + n / 2 ^ 24 % 2 ^ 8 * 2 ^ 24 + n / 2 ^ 16 % 2 ^ 8 * 2 ^ 16 +
      n / 2 ^ 8 % 2 ^ 8 * 2 ^ 8 + n / 2 ^ 0 % 2 ^ 8 := by
  omega

/-- Settles O33: bits and bytes are slices of the words by definition, and a word is the sum of its eight slices. -/
theorem wordBitAndByteViewsAgree : Obligations.WordBitAndByteViewsAgree := by
  intro v
  refine ⟨fun i h => rfl, fun j h => ?_, fun k => ?_⟩
  · have hwidth : 63 - 8 * (j.val % 8) - (56 - 8 * (j.val % 8)) + 1 = 8 := by omega
    rw [byteAt_toNat, slice, hwidth]
  · have hbyte := byteAt_toNat_of_word v k
    have hfirst : (byteAt v ⟨8 * k.val, by omega⟩).toNat = v[k].toNat / 2 ^ 56 % 2 ^ 8 := hbyte 0 (by decide)
    rw [hfirst, hbyte 1 (by decide), hbyte 2 (by decide), hbyte 3 (by decide), hbyte 4 (by decide),
      hbyte 5 (by decide), hbyte 6 (by decide), hbyte 7 (by decide)]
    exact eq_sum_bytes v[k].isLt

/-! ### Reset (R24) -/

theorem emptyBV_getElem (k : Nat) (h : k < 32) : emptyBV[k] = 0 := Vector.getElem_replicate h

/-- Settles O54: reset and CLEAR both leave the empty vector. -/
theorem resetEmptiesTheFilter : Obligations.ResetEmptiesTheFilter := by
  refine ⟨emptyBV_getElem, bitAt_emptyBV, byteAt_emptyBV, rfl, fun s t h => ?_⟩
  rw [exec_clear] at h
  cases h
  exact ⟨rfl, s.hostReset_bv, s.hostReset_rx⟩

end Sys2Proof.Machine

/-! PROOFS. The order of commands and their digest transactions: a run of the engine is the run of the abstract commands
(spec/20_memory.md R35), which commands send a digest request (R41), and that reads repeat and writes are idempotent
(R32). -/

namespace Sys2Proof.Machine

variable {s t u : State}

/-! ### A run is the run of the abstract commands (R35) -/

/-- The state after the frames `fs` have been taken and answered, with the frames `rest` left behind them. -/
def afterFrames (fs rest : List Frame) (s : State) : State :=
  { s with
    bv := (abstractRun Config.keccak256 s.bv fs).1
    cmdPort := rest
    rspPort := s.rspPort ++ (abstractRun Config.keccak256 s.bv fs).2.map responseFrame
    digPort := s.digPort ++ fs.flatMap frameDigestRequests }

/-- Answering no frame changes nothing. -/
theorem afterFrames_nil {rest : List Frame} (h : s.cmdPort = rest) : afterFrames [] rest s = s := by
  subst h
  simp [afterFrames, abstractRun]

/-- Answering the first frame and then the others is answering them all: the others see the filter that the first one
left, and their responses and requests come behind its own. -/
theorem afterFrames_cons (f : Frame) (fs mid rest : List Frame) (s : State) :
    afterFrames fs rest (afterFrames [f] mid s) = afterFrames (f :: fs) rest s := by
  simp [afterFrames, abstractRun]

theorem step_of_command {f : Frame} {rest : List Frame} {i : Instr} (hw : s.digestWait = none)
    (hc : s.cmdPort = f :: rest) (hd : decode f = .command i) : step s = exec i { s with cmdPort := rest } := by
  rw [decode] at hd
  simp only [step, stepWith, State.fetch, hw, hc, hd]

theorem step_of_illegal {f : Frame} {rest : List Frame} {r : IllegalFrame} (hw : s.digestWait = none)
    (hc : s.cmdPort = f :: rest) (hd : decode f = .illegal r) :
    step s = .next (State.raise .illegalCommand { s with cmdPort := rest }) := by
  rw [decode] at hd
  simp only [step, stepWith, State.fetch, hw, hc, hd]

/-- One step takes and answers the oldest frame, whether it is a command or illegal. -/
theorem step_eq_afterFrames {f : Frame} {rest : List Frame} (hw : s.digestWait = none) (hr : s.digestReplies = true)
    (hc : s.cmdPort = f :: rest) : step s = .next (afterFrames [f] rest s) := by
  cases hd : decode f with
  | illegal r =>
    rw [step_of_illegal hw hc hd]
    simp [afterFrames, abstractRun, abstractFrame, frameDigestRequests, hd, State.raise, State.emit]
  | command i =>
    rw [step_of_command hw hc hd, exec_of_replies i { s with cmdPort := rest } hr]
    simp [afterFrames, abstractRun, abstractFrame, frameDigestRequests, hd, answered]

theorem run_succ_of_step (M : Host.Core) {s t : M.State} (n : Nat) (h : M.step s = .next t) :
    M.run (n + 1) s = M.run n t := by
  simp only [Host.Core.run, h]

/-- As many steps as frames take and answer them all, by induction over the frames. -/
theorem core_run_eq_afterFrames (fs : List Frame) {rest : List Frame} (hw : s.digestWait = none)
    (hr : s.digestReplies = true) (hc : s.cmdPort = fs ++ rest) :
    core.run fs.length s = .next (afterFrames fs rest s) := by
  induction fs generalizing s with
  | nil => exact congrArg Host.Outcome.next (afterFrames_nil hc).symm
  | cons f fs ih =>
    have hrest := ih (s := afterFrames [f] (fs ++ rest) s) hw hr rfl
    rw [afterFrames_cons] at hrest
    exact (run_succ_of_step core fs.length (step_eq_afterFrames hw hr hc)).trans hrest

theorem length_abstractRun (hash : List Byte → Digest) (v : BV) (fs : List Frame) :
    (abstractRun hash v fs).2.length = fs.length := by
  induction fs generalizing v with
  | nil => rfl
  | cons f fs ih => exact congrArg (· + 1) (ih _)

/-- Settles O13: one step answers one frame as the abstract command does, hence a run does so frame by frame. -/
theorem runRefinesAbstractCommands : Obligations.RunRefinesAbstractCommands :=
  fun fs s _ hw hr hc => ⟨length_abstractRun _ s.bv fs, core_run_eq_afterFrames fs hw hr hc⟩

/-! ### Digest transactions (R41) -/

theorem DigestWait.command_digestRequests (w : DigestWait) : w.command.digestRequests = [w.data] := by
  cases w <;> rfl

/-- A command sends its digest requests, whether it is answered or comes to wait for its digest. -/
theorem exec_digPort {i : Instr} (h : exec i s = .next t) : t.digPort = s.digPort ++ i.digestRequests := by
  obtain hanswered | ⟨w, rfl, -, hwaits⟩ := exec_cases i s
  · cases hanswered.symm.trans h
    rfl
  · cases hwaits.symm.trans h
    rw [w.command_digestRequests]

theorem digestRequests_eq_nil {i : Instr} (h : ∀ data, i ≠ .insert (some data) ∧ i ≠ .contains (some data)) :
    i.digestRequests = [] := by
  cases i with
  | insert d =>
    cases d with
    | none => rfl
    | some data => exact absurd rfl (h data).1
  | contains d =>
    cases d with
    | none => rfl
    | some data => exact absurd rfl (h data).2
  | _ => rfl

/-- A command that comes to wait for its digest has not written the filter. -/
theorem exec_bv_of_digestWait_ne {i : Instr} (h : exec i s = .next t) (hw : t.digestWait ≠ s.digestWait) :
    t.bv = s.bv := by
  obtain hanswered | ⟨w, -, -, hwaits⟩ := exec_cases i s
  · cases hanswered.symm.trans h
    exact absurd rfl hw
  · cases hwaits.symm.trans h
    rfl

/-- Completing a waiting command sends no request. -/
theorem step_digPort_of_waiting {w : DigestWait} (hw : s.digestWait = some w) (h : step s = .next t) :
    t.digPort = s.digPort := by
  obtain ⟨hnone, -, -⟩ | ⟨_, _, _, hnone, -, -, -⟩ | ⟨_, _, _, hnone, -, -, -⟩ | ⟨_, -, -, rfl⟩ := step_cases h
  · cases hw.symm.trans hnone
  · cases hw.symm.trans hnone
  · cases hw.symm.trans hnone
  · rfl

/-- Settles O16: a command sends exactly its digest requests, and only when it is accepted. -/
theorem digestTransactionsOfEachCommand : Obligations.DigestTransactionsOfEachCommand := by
  refine ⟨fun _ _ _ h => exec_digPort h, fun _ _ _ h => exec_digPort h, fun i s t hi h => ?_,
    fun _ _ _ h hw => exec_bv_of_digestWait_ne h hw, fun _ _ _ hw h => step_digPort_of_waiting hw h⟩
  rw [exec_digPort h, digestRequests_eq_nil hi, List.append_nil]

/-! ### Reads repeat, writes are idempotent (R32) -/

theorem exec_eq_answered {i : Instr} (hr : s.digestReplies = true) (h : exec i s = .next t) : t = answered i s := by
  cases (exec_of_replies i s hr).symm.trans h
  rfl

/-- A command outside the writing column of R30 keeps the filter, in error too. -/
theorem abstractCommand_bv_of_not_writesBV (hash : List Byte → Digest) (v : BV) {i : Instr}
    (hi : i.writesBV = false) : (abstractCommand hash v i).1 = v := by
  cases i with
  | clear | load _ | insert _ | bvset _ => cases hi
  | bvget idx =>
    simp only [abstractCommand, abstractConclusion]
    cases bvGet v idx <;> rfl
  | unpack buf =>
    simp only [abstractCommand, abstractConclusion]
    cases bcBytesToLongs buf <;> rfl
  | store | contains _ | bitpos _ | bvpop | popcnt _ | u32be _ _ _ _ | pack _ => rfl

theorem setBit_of_bitAt {v : BV} {i : BitIndex} (h : bitAt v i = true) : setBit v i = v := by
  refine bv_ext_bits fun j => ?_
  rw [bitAt_setBit]
  by_cases hj : j = i
  · simp [hj, h]
  · simp [hj]

theorem bfMark_bfMark (v : BV) (ps : List BitIndex) : bfMark (bfMark v ps) ps = bfMark v ps := by
  refine bv_ext_bits fun j => Bool.eq_iff_iff.mpr ?_
  simp only [bitAt_bfMark, or_assoc, or_self]

theorem abstractCommand_bvset (hash : List Byte → Digest) (v : BV) (idx : Nat) :
    (abstractCommand hash v (.bvset idx)).1 = if h : idx < 2048 then setBit v ⟨idx, h⟩ else v := by
  simp only [abstractCommand, abstractConclusion, bvSet, bitIndex_nat]
  by_cases h : idx < 2048
  · simp only [dif_pos h, Except.map]
  · simp only [dif_neg h, Except.map]

/-- A command done twice leaves the filter it leaves when done once: CLEAR and LOAD do not look at the old filter, a bit
set again by INSERT or BVSET is set already, and the other commands keep the filter. -/
theorem abstractCommand_bv_idempotent (hash : List Byte → Digest) (v : BV) (i : Instr) :
    (abstractCommand hash (abstractCommand hash v i).1 i).1 = (abstractCommand hash v i).1 := by
  cases i with
  | clear => rfl
  | load buf =>
    simp only [abstractCommand, abstractConclusion]
    cases bvFromBytes buf <;> rfl
  | insert d =>
    cases d with
    | none => rfl
    | some data => exact bfMark_bfMark v _
  | bvset idx =>
    simp only [abstractCommand_bvset]
    by_cases h : idx < 2048
    · simp only [dif_pos h]
      exact setBit_of_bitAt (by simp [bitAt_setBit])
    · simp only [dif_neg h]
  | store | contains _ | bitpos _ | bvget _ | bvpop | popcnt _ | u32be _ _ _ _ | pack _ | unpack _ =>
    rw [abstractCommand_bv_of_not_writesBV hash _ rfl]

/-- A read keeps the filter, and its response depends on nothing else of the state. -/
theorem read_repeats {i : Instr} (hr : s.digestReplies = true) (hi : i.writesBV = false) (h : exec i s = .next t) :
    t.bv = s.bv ∧ ∃ r, t.rspPort = s.rspPort ++ [r] ∧ ∀ u w : State, u.bv = s.bv → u.digestReplies = true →
      exec i u = .next w → w.rspPort = u.rspPort ++ [r] := by
  cases exec_eq_answered hr h
  refine ⟨abstractCommand_bv_of_not_writesBV _ _ hi, _, rfl, fun u w hbv hru hu => ?_⟩
  cases exec_eq_answered hru hu
  rw [← hbv]
  rfl

theorem exec_twice_bv {i : Instr} (hr : s.digestReplies = true) (hst : exec i s = .next t)
    (htu : exec i t = .next u) : u.bv = t.bv := by
  cases exec_eq_answered hr hst
  have hrt : (answered i s).digestReplies = true := hr
  cases exec_eq_answered hrt htu
  exact abstractCommand_bv_idempotent _ s.bv i

theorem exec_bvset_bv_of_bitAt {idx : Nat} {hidx : idx < 2048} (hbit : bitAt s.bv ⟨idx, hidx⟩ = true)
    (h : exec (.bvset idx) s = .next t) : t.bv = s.bv := by
  cases (exec_of_no_digest (.bvset idx) s rfl).symm.trans h
  exact (abstractCommand_bvset _ s.bv idx).trans ((dif_pos hidx).trans (setBit_of_bitAt hbit))

/-- Settles O18: what a command answers and what it leaves in the filter are those of the abstract command. -/
theorem readsRepeatAndWritesAreIdempotent : Obligations.ReadsRepeatAndWritesAreIdempotent :=
  ⟨fun _ _ _ hr hi h => read_repeats hr hi h, fun _ _ _ _ hr _ hst htu => exec_twice_bv hr hst htu,
    fun _ _ _ _ hbit h => exec_bvset_bv_of_bitAt hbit h⟩

end Sys2Proof.Machine

/-! PROOFS. Which frames the decoder accepts: format by format, row by row of the opcode map, and the frames that are
illegal (spec/30_encoding.md R45, R47, R53). -/

namespace Sys2Proof

open Sys2Proof.Machine

/-! ### Each format accepts what R45 says -/

/-- The condition that a format puts on the operand field and on the payload length together (R45). -/
def Format.Accepts (arg len : Nat) : Format → Prop
  | .n => arg = 0 ∧ len = 0
  | .i => len = 0
  | .p => arg = 0
  | .d => arg = 0 ∨ arg = 1 ∧ len = 0
  | .g => arg = 0 ∧ len = 32
  | .q => arg = 0 ∧ len = 4
  | .w => arg = 0 ∧ len % 8 = 0

/-- The outcome is a command of this mnemonic if `ok` holds, and illegal if it does not. -/
def Decoded.IsCommandIff (mnemonic : String) (ok : Prop) : Decoded → Prop
  | .command i => ok ∧ i.mnemonic = mnemonic
  | .illegal _ => ¬ ok

theorem requireZeroArg_isCommandIff (arg : Nat) (ok : Prop) [Decidable ok] (c : Instr) :
    (requireZeroArg arg ok c).IsCommandIff c.mnemonic (arg = 0 ∧ ok) := by
  unfold requireZeroArg
  split
  case isTrue harg => exact fun h => harg h.1
  case isFalse harg =>
    split
    case isTrue hok => exact ⟨⟨not_not.mp harg, of_decide_eq_true hok⟩, rfl⟩
    case isFalse hok => exact fun h => hok (decide_eq_true h.2)

theorem requireZeroArg_true_isCommandIff (arg : Nat) (c : Instr) :
    (requireZeroArg arg true c).IsCommandIff c.mnemonic (arg = 0) := by
  simpa using requireZeroArg_isCommandIff arg True c

theorem decodeOptional_isCommandIff (arg : Nat) (p : List Byte) {mk : Option (List Byte) → Instr} {mnemonic : String}
    (hmk : ∀ d, (mk d).mnemonic = mnemonic) :
    (decodeOptional arg p mk).IsCommandIff mnemonic (arg = 0 ∨ arg = 1 ∧ p.length = 0) := by
  unfold decodeOptional
  split
  case isTrue h0 => exact ⟨.inl h0, hmk _⟩
  case isFalse h0 =>
    split
    case isTrue h1 =>
      split
      case isTrue hp => exact ⟨.inr ⟨h1, hp⟩, hmk _⟩
      case isFalse hp => exact fun h => h.elim h0 fun h => hp h.2
    case isFalse h1 => exact fun h => h.elim h0 fun h => h1 h.1

theorem decodeIndex_isCommandIff (arg : Nat) (p : List Byte) {mk : Nat → Instr} {mnemonic : String}
    (hmk : ∀ idx, (mk idx).mnemonic = mnemonic) :
    (decodeIndex arg p mk).IsCommandIff mnemonic (p.length = 0) := by
  unfold decodeIndex
  split
  case isTrue hp => exact ⟨hp, hmk _⟩
  case isFalse hp => exact hp

theorem decodeDigest_isCommandIff (arg : Nat) (p : List Byte) :
    (decodeDigest arg p).IsCommandIff "BITPOS" (arg = 0 ∧ p.length = 32) := by
  unfold decodeDigest
  split
  case isTrue harg => exact fun h => harg h.1
  case isFalse harg =>
    split
    case isTrue hp => exact ⟨⟨not_not.mp harg, hp⟩, rfl⟩
    case isFalse hp => exact fun h => hp h.2

theorem decodeQuad_isCommandIff (arg : Nat) (p : List Byte) :
    (decodeQuad arg p).IsCommandIff "U32BE" (arg = 0 ∧ p.length = 4) := by
  unfold decodeQuad
  split
  case isTrue harg => exact fun h => harg h.1
  case isFalse harg =>
    split
    case h_1 => exact ⟨⟨not_not.mp harg, rfl⟩, rfl⟩
    case h_2 hp =>
      rintro ⟨-, hlen⟩
      obtain ⟨b0, b1, b2, b3, rfl⟩ := List.length_eq_four.mp hlen
      exact hp b0 b1 b2 b3 rfl

/-! ### The decoder follows the opcode map (R47) -/

/-- The opcode of a row: the field `op` of the header it matches (R44). -/
def OpcodeRow.op (r : OpcodeRow) : Nat := headerOp r.headerMatch

/-- The operand bits of the header that a format leaves to the frame: the index of format I, the bit `A` of format D. -/
def Format.freeBits : Format → Nat
  | .i => 24
  | .d => 1
  | .n | .p | .g | .q | .w => 0

/-- The mask of a row leaves out its format's free bits, and its match is its opcode with no operand bit. -/
theorem opcodeTable_mask_match : ∀ r ∈ opcodeTable,
    r.headerMask = 2 ^ 32 - 2 ^ r.format.freeBits ∧ r.headerMatch = r.op * 2 ^ 24 ∧ r.format.freeBits < 32 := by decide

/-- Masking out the low `k` bits of a header. -/
theorem and_highMask {h k : Nat} (hlt : h < 2 ^ 32) (hk : k ≤ 32) : h &&& (2 ^ 32 - 2 ^ k) = h / 2 ^ k * 2 ^ k := by
  have hmask : 2 ^ 32 - 2 ^ k = (2 ^ (32 - k) - 1) <<< k := by
    rw [Nat.shiftLeft_eq, Nat.sub_mul, one_mul, ← pow_add, Nat.sub_add_cancel hk]
  rw [hmask, ← Nat.shiftRight_eq_div_pow, ← Nat.shiftLeft_eq]
  refine Nat.eq_of_testBit_eq fun n => ?_
  simp only [Nat.testBit_and, Nat.testBit_shiftLeft, Nat.testBit_two_pow_sub_one, Nat.testBit_shiftRight]
  by_cases hkn : k ≤ n
  · by_cases hn : n < 32
    · have hlow : n - k < 32 - k := by omega
      simp [hkn, hlow]
    · have hbit : h.testBit n = false :=
        Nat.testBit_lt_two_pow (hlt.trans_le (Nat.pow_le_pow_right (by decide) (by omega)))
      simp [hkn, hbit]
  · simp [hkn]

/-- A row selects a frame exactly when its opcode is the frame's and its format accepts the frame's fields. -/
theorem OpcodeRow.selects_iff {r : OpcodeRow} (hr : r ∈ opcodeTable) {f : Frame} (hf : 4 ≤ f.length) :
    r.selects f = true ↔ r.op = headerOp (headerOf f) ∧
      r.format.Accepts (headerArg (headerOf f)) (payloadOf f).length := by
  obtain ⟨hmask, hmatch, hfree⟩ := opcodeTable_mask_match r hr
  have hlt := headerOf_lt f hf
  rw [OpcodeRow.selects, Bool.and_eq_true, decide_eq_true_eq, hmask, hmatch, and_highMask hlt hfree.le]
  generalize headerOf f = h at *
  generalize (payloadOf f).length = len
  generalize r.op = op
  cases r.format <;>
    simp only [Format.freeBits, Format.payloadOk, Format.Accepts, headerOp, headerArg, slice, decide_eq_true_eq,
      Bool.or_eq_true, Nat.reduceSub, Nat.reduceAdd, Nat.reducePow, Nat.div_one, and_true] <;>
    omega

/-- A frame with a row's opcode decodes to the row's command if the row's format accepts its fields, and is illegal if
not. -/
theorem decodeFields_isCommandIff (arg : Nat) (p : List Byte) : ∀ r ∈ opcodeTable,
    (decodeFields r.op arg p).IsCommandIff r.mnemonic (r.format.Accepts arg p.length) := by
  simp only [opcodeTable, List.cons_append, List.nil_append, List.forall_mem_cons]
  exact ⟨requireZeroArg_isCommandIff arg _ .clear, requireZeroArg_true_isCommandIff arg (.load p),
    requireZeroArg_isCommandIff arg _ .store, decodeOptional_isCommandIff arg p fun _ => rfl,
    decodeOptional_isCommandIff arg p fun _ => rfl, decodeDigest_isCommandIff arg p,
    decodeIndex_isCommandIff arg p fun _ => rfl, decodeIndex_isCommandIff arg p fun _ => rfl,
    requireZeroArg_isCommandIff arg _ .bvpop, requireZeroArg_true_isCommandIff arg (.popcnt p),
    decodeQuad_isCommandIff arg p, requireZeroArg_isCommandIff arg _ (.pack (wordsBE p)),
    requireZeroArg_true_isCommandIff arg (.unpack p), List.forall_mem_nil _⟩

theorem opcodeTable_ops : opcodeTable.map OpcodeRow.op =
    [0x01, 0x02, 0x03, 0x04, 0x05, 0x06, 0x10, 0x11, 0x12, 0x20, 0x21, 0x22, 0x23] := by decide

/-- An opcode outside the opcode map is illegal. -/
theorem decodeFields_of_unassigned {op : Nat} (arg : Nat) (p : List Byte) (h : op ∉ opcodeTable.map OpcodeRow.op) :
    decodeFields op arg p = .illegal .opcodeUnassigned := by
  rw [opcodeTable_ops] at h
  unfold decodeFields
  split
  case h_14 => rfl
  all_goals exact absurd (by decide) h

/-- A frame with a header and an admitted payload decodes by its fields. -/
theorem decodeWith_of_fits {m : Nat} {f : Frame} (hf : 4 ≤ f.length) (hm : (payloadOf f).length ≤ m) :
    decodeWith m f = decodeFields (headerOp (headerOf f)) (headerArg (headerOf f)) (payloadOf f) := by
  rw [decodeWith, if_neg (by omega), if_neg (by omega)]

theorem Decoded.IsCommandIff.of_command {mnemonic : String} {ok : Prop} {d : Decoded} {i : Instr}
    (h : d.IsCommandIff mnemonic ok) (hd : d = .command i) : ok ∧ i.mnemonic = mnemonic := by
  subst hd
  exact h

theorem Decoded.IsCommandIff.exists_command {mnemonic : String} {ok : Prop} {d : Decoded}
    (h : d.IsCommandIff mnemonic ok) (hok : ok) : ∃ i, d = .command i ∧ i.mnemonic = mnemonic := by
  cases d with
  | command i => exact ⟨i, rfl, h.2⟩
  | illegal x => exact absurd hok h

theorem Decoded.IsCommandIff.exists_illegal_iff {mnemonic : String} {ok : Prop} {d : Decoded}
    (h : d.IsCommandIff mnemonic ok) : (∃ x, d = .illegal x) ↔ ¬ ok := by
  cases d with
  | command i => exact ⟨nofun, fun hok => absurd h.1 hok⟩
  | illegal x => exact ⟨fun _ => h, fun _ => ⟨x, rfl⟩⟩

/-- A command comes from a frame that the row of its mnemonic selects. -/
theorem exists_row_of_decodeWith_command {m : Nat} {f : Frame} {i : Instr} (h : decodeWith m f = .command i) :
    ∃ r ∈ opcodeTable, r.mnemonic = i.mnemonic ∧ r.selects f = true := by
  obtain ⟨hf, -, hfields⟩ := decodeWith_command h
  by_cases hop : headerOp (headerOf f) ∈ opcodeTable.map OpcodeRow.op
  · obtain ⟨r, hr, hrop⟩ := List.mem_map.mp hop
    have hrow := decodeFields_isCommandIff (headerArg (headerOf f)) (payloadOf f) r hr
    obtain ⟨haccepts, hmnemonic⟩ := hrow.of_command (hrop ▸ hfields)
    exact ⟨r, hr, hmnemonic.symm, (OpcodeRow.selects_iff hr hf).mpr ⟨hrop, haccepts⟩⟩
  · rw [decodeFields_of_unassigned _ _ hop] at hfields
    cases hfields

/-- A frame that fits and that a row selects decodes to a command of that row. -/
theorem exists_command_of_selects {m : Nat} {f : Frame} {r : OpcodeRow} (hr : r ∈ opcodeTable) (hf : 4 ≤ f.length)
    (hm : (payloadOf f).length ≤ m) (hsel : r.selects f = true) :
    ∃ i, decodeWith m f = .command i ∧ i.mnemonic = r.mnemonic := by
  obtain ⟨hop, haccepts⟩ := (OpcodeRow.selects_iff hr hf).mp hsel
  rw [decodeWith_of_fits hf hm, ← hop]
  exact (decodeFields_isCommandIff _ _ r hr).exists_command haccepts

theorem opcodeRow_eq_of_mnemonic_eq : ∀ r ∈ opcodeTable, ∀ q ∈ opcodeTable, r.mnemonic = q.mnemonic → r = q := by
  decide

theorem decodeWith_command_iff_selects {m : Nat} {f : Frame} {r : OpcodeRow} (hr : r ∈ opcodeTable) :
    (∃ i, decodeWith m f = .command i ∧ i.mnemonic = r.mnemonic) ↔
      4 ≤ f.length ∧ (payloadOf f).length ≤ m ∧ r.selects f = true := by
  constructor
  · rintro ⟨i, hi, hmnemonic⟩
    obtain ⟨hf, hm, -⟩ := decodeWith_command hi
    obtain ⟨q, hq, hqi, hsel⟩ := exists_row_of_decodeWith_command hi
    obtain rfl := opcodeRow_eq_of_mnemonic_eq q hq r hr (hqi.trans hmnemonic)
    exact ⟨hf, hm, hsel⟩
  · rintro ⟨hf, hm, hsel⟩
    exact exists_command_of_selects hr hf hm hsel

theorem exists_illegal_of_not_selects {m : Nat} {f : Frame} (h : ∀ r ∈ opcodeTable, r.selects f = false) :
    ∃ x, decodeWith m f = .illegal x := by
  cases hd : decodeWith m f with
  | illegal x => exact ⟨x, rfl⟩
  | command i =>
    obtain ⟨r, hr, -, hsel⟩ := exists_row_of_decodeWith_command hd
    cases (h r hr).symm.trans hsel

/-! ### The fields that the commands are read from (R45) -/

/-- A command is read from the fields of its frame under the opcode of its row. -/
theorem decodeFields_of_decodeWith {m : Nat} {f : Frame} {i : Instr} {r : OpcodeRow} (hr : r ∈ opcodeTable)
    (hmnemonic : i.mnemonic = r.mnemonic) (h : decodeWith m f = .command i) :
    decodeFields r.op (headerArg (headerOf f)) (payloadOf f) = .command i := by
  obtain ⟨hf, -, hsel⟩ := (decodeWith_command_iff_selects hr).mp ⟨i, h, hmnemonic⟩
  rw [((OpcodeRow.selects_iff hr hf).mp hsel).1]
  exact (decodeWith_command h).2.2

/-- Format D: the bit `A` of the operand field says whether the operand is absent. -/
theorem decodeOptional_command {arg : Nat} {p : List Byte} {mk : Option (List Byte) → Instr} {d : Option (List Byte)}
    (hmk : Function.Injective mk) (h : decodeOptional arg p mk = .command (mk d)) : d = none ↔ arg % 2 = 1 := by
  unfold decodeOptional at h
  split at h
  case isTrue h0 =>
    obtain rfl := hmk (Decoded.command.inj h)
    simp [h0]
  case isFalse =>
    split at h
    case isTrue h1 =>
      split at h
      case isTrue =>
        obtain rfl := hmk (Decoded.command.inj h)
        simp [h1]
      case isFalse => cases h
    case isFalse => cases h

/-- Format I: the index is the operand field. -/
theorem decodeIndex_command {arg idx : Nat} {p : List Byte} {mk : Nat → Instr} (hmk : Function.Injective mk)
    (h : decodeIndex arg p mk = .command (mk idx)) : idx = arg := by
  unfold decodeIndex at h
  split at h
  case isTrue => exact (hmk (Decoded.command.inj h)).symm
  case isFalse => cases h

theorem slice_zero_eq_headerArg_mod (h : Nat) : slice h 0 0 = headerArg h % 2 := by
  simp only [slice, headerArg]
  omega

theorem absent_iff_of_decodeWith {m : Nat} {f : Frame} {d : Option (List Byte)}
    (h : decodeWith m f = .command (.insert d) ∨ decodeWith m f = .command (.contains d)) :
    d = none ↔ slice (headerOf f) 0 0 = 1 := by
  rw [slice_zero_eq_headerArg_mod]
  rcases h with h | h
  · exact decodeOptional_command (fun _ _ => Instr.insert.inj)
      (decodeFields_of_decodeWith (r := ⟨"INSERT", .d, 0x04000000, 0xFFFFFFFE⟩) (by decide) rfl h)
  · exact decodeOptional_command (fun _ _ => Instr.contains.inj)
      (decodeFields_of_decodeWith (r := ⟨"CONTAINS", .d, 0x05000000, 0xFFFFFFFE⟩) (by decide) rfl h)

theorem index_of_decodeWith {m : Nat} {f : Frame} {idx : Nat}
    (h : decodeWith m f = .command (.bvset idx) ∨ decodeWith m f = .command (.bvget idx)) :
    idx = slice (headerOf f) 23 0 := by
  rcases h with h | h
  · exact decodeIndex_command (fun _ _ => Instr.bvset.inj)
      (decodeFields_of_decodeWith (r := ⟨"BVSET", .i, 0x10000000, 0xFF000000⟩) (by decide) rfl h)
  · exact decodeIndex_command (fun _ _ => Instr.bvget.inj)
      (decodeFields_of_decodeWith (r := ⟨"BVGET", .i, 0x11000000, 0xFF000000⟩) (by decide) rfl h)

/-- Settles O3: a command's frame is selected by the row of its mnemonic, and a selected frame decodes to a command of
the row. -/
theorem decoderFollowsOpcodeMap : Obligations.DecoderFollowsOpcodeMap := by
  refine fun m f => ⟨fun r hr => decodeWith_command_iff_selects hr, exists_illegal_of_not_selects, fun i hi => ?_,
    fun d => absent_iff_of_decodeWith, fun idx => index_of_decodeWith⟩
  obtain ⟨r, hr, hmnemonic, -⟩ := exists_row_of_decodeWith_command hi
  exact ⟨r, hr, hmnemonic⟩

/-! ### The illegal frames (R53) -/

/-- R53's list of what a frame whose opcode is assigned can have wrong: nonzero operand bits that the format wants zero,
a payload where there is to be none, or a payload length that the format does not allow. -/
def FieldsIllegal (op arg : Nat) (p : List Byte) : Prop :=
  (op ∈ [0x01, 0x02, 0x03, 0x06, 0x12, 0x20, 0x21, 0x22, 0x23] ∧ arg ≠ 0) ∨
  (op ∈ [0x04, 0x05] ∧ arg / 2 ≠ 0) ∨
  (op ∈ [0x01, 0x03, 0x10, 0x11, 0x12] ∧ p ≠ []) ∨
  (op ∈ [0x04, 0x05] ∧ arg % 2 = 1 ∧ p ≠ []) ∨
  (op = 0x06 ∧ p.length ≠ 32) ∨ (op = 0x21 ∧ p.length ≠ 4) ∨ (op = 0x22 ∧ p.length % 8 ≠ 0)

/-- What R53 lists for a row's opcode is what the row's format does not accept. -/
theorem fieldsIllegal_iff_not_accepts (arg : Nat) (p : List Byte) : ∀ r ∈ opcodeTable,
    (FieldsIllegal r.op arg p ↔ ¬ r.format.Accepts arg p.length) := by
  have hp : p = [] ↔ p.length = 0 := List.length_eq_zero_iff.symm
  simp only [FieldsIllegal, ne_eq, hp]
  generalize p.length = len
  simp only [opcodeTable, List.cons_append, List.nil_append, List.forall_mem_cons]
  refine ⟨?_, ?_, ?_, ?_, ?_, ?_, ?_, ?_, ?_, ?_, ?_, ?_, ?_, List.forall_mem_nil _⟩ <;>
    simp [OpcodeRow.op, headerOp, slice, Format.Accepts] <;>
    omega

theorem slice_high_eq_headerArg_div (h : Nat) : slice h 23 1 = headerArg h / 2 := by
  simp only [slice, headerArg]
  omega

/-- A frame is illegal by its length, by its opcode, or by its fields. -/
theorem decodeWith_illegal_iff (m : Nat) (f : Frame) : (∃ x, decodeWith m f = .illegal x) ↔
    f.length < 4 ∨ m < (payloadOf f).length ∨ headerOp (headerOf f) ∉ opcodeTable.map OpcodeRow.op ∨
      FieldsIllegal (headerOp (headerOf f)) (headerArg (headerOf f)) (payloadOf f) := by
  by_cases hf : f.length < 4
  · simp [decodeWith, hf]
  by_cases hm : m < (payloadOf f).length
  · simp [decodeWith, hf, hm]
  have hfits := decodeWith_of_fits (Nat.not_lt.mp hf) (Nat.not_lt.mp hm)
  by_cases hop : headerOp (headerOf f) ∈ opcodeTable.map OpcodeRow.op
  · obtain ⟨r, hr, hrop⟩ := List.mem_map.mp hop
    have hrow := (decodeFields_isCommandIff (headerArg (headerOf f)) (payloadOf f) r hr).exists_illegal_iff
    rw [← fieldsIllegal_iff_not_accepts _ _ r hr, hrop, ← hfits] at hrow
    simp only [hrow, hf, hm, hop, not_true, false_or]
  · simp [hfits, decodeFields_of_unassigned _ _ hop, hop]

/-- Settles O4: the frames that R53 lists are those whose fields no format accepts, and the step for an illegal frame only
raises `IllegalCommand`. -/
theorem illegalFramesAnsweredIllegalCommand : Obligations.IllegalFramesAnsweredIllegalCommand := by
  refine ⟨fun m f => ?_, fun s f rest x hw hc hd => step_of_illegal hw hc hd⟩
  rw [slice_zero_eq_headerArg_mod, slice_high_eq_headerArg_div, ← opcodeTable_ops]
  exact decodeWith_illegal_iff m f

end Sys2Proof

/-! PROOFS. Responses: each command is answered by one frame before the next is taken (spec/30_encoding.md R49), and which
command sends which status (R51). -/

namespace Sys2Proof.Machine

variable {s t : State}

/-! ### One response per command (R49) -/

theorem step_answers_oldest_frame {f : Frame} {rest : List Frame} (hw : s.digestWait = none)
    (hr : s.digestReplies = true) (hc : s.cmdPort = f :: rest) :
    ∃ t r, step s = .next t ∧ t.cmdPort = rest ∧ t.rspPort = s.rspPort ++ [r] ∧ t.digestWait = none :=
  ⟨_, _, step_eq_afterFrames hw hr hc, rfl, rfl, hw⟩

/-- A step from a waiting command answers that command and sends no further request. -/
theorem step_of_waiting {w : DigestWait} (hw : s.digestWait = some w) (h : step s = .next t) :
    t = { answered w.command { s with digestWait := none } with digPort := s.digPort } := by
  obtain ⟨hnone, -, -⟩ | ⟨_, _, _, hnone, -, -, -⟩ | ⟨_, _, _, hnone, -, -, -⟩ | ⟨w', hw', -, ht⟩ := step_cases h
  · cases hw.symm.trans hnone
  · cases hw.symm.trans hnone
  · cases hw.symm.trans hnone
  · cases hw.symm.trans hw'
    exact ht

/-- A command that comes to wait for its digest has emitted nothing. -/
theorem exec_rspPort_of_waits {i : Instr} (hw : s.digestWait = none) (h : exec i s = .next t)
    (hwaits : t.digestWait ≠ none) : t.rspPort = s.rspPort := by
  obtain hanswered | ⟨w, -, -, hheld⟩ := exec_cases i s
  · cases hanswered.symm.trans h
    exact absurd hw hwaits
  · cases hheld.symm.trans h
    rfl

/-- Settles O12: a step answers the frame it takes or the command that waits, and a command that comes to wait is not
answered yet. -/
theorem oneResponsePerCommand : Obligations.OneResponsePerCommand := by
  refine ⟨fun _ _ _ hw hr hc => step_answers_oldest_frame hw hr hc, fun s t w hw h => ?_,
    fun _ _ _ hw h hwaits => exec_rspPort_of_waits hw h hwaits⟩
  cases step_of_waiting hw h
  exact ⟨rfl, rfl, _, rfl⟩

/-! ### Which command sends which status (R51) -/

/-- The commands that refuse the length of their operand (R76, R98). -/
def RefusesLength (i : Instr) : Prop :=
  (∃ buf, i = .load buf ∧ buf.length ≠ 256) ∨ ∃ buf, i = .unpack buf ∧ buf.length % 8 ≠ 0

/-- The commands that refuse their index (R69, R70). -/
def RefusesIndex (i : Instr) : Prop := ∃ idx, (i = .bvset idx ∨ i = .bvget idx) ∧ 2048 ≤ idx

theorem abstractCommand_of_refusesLength (hash : List Byte → Digest) (v : BV) {i : Instr} (h : RefusesLength i) :
    (abstractCommand hash v i).2 = .error .invalidLength := by
  rcases h with ⟨buf, rfl, hlen⟩ | ⟨buf, rfl, hlen⟩
  · simp only [abstractCommand, abstractConclusion, bvFromBytes_error buf hlen, Except.map]
  · simp only [abstractCommand, abstractConclusion, bcBytesToLongs, if_pos hlen, Except.map]

theorem abstractCommand_of_refusesIndex (hash : List Byte → Digest) (v : BV) {i : Instr} (h : RefusesIndex i) :
    (abstractCommand hash v i).2 = .error .indexOutOfRange := by
  obtain ⟨idx, rfl | rfl, hidx⟩ := h
  · simp only [abstractCommand, abstractConclusion, bvSet, bitIndex_nat, dif_neg (Nat.not_lt.mpr hidx), Except.map]
  · simp only [abstractCommand, abstractConclusion, bvGet, bitIndex_nat, dif_neg (Nat.not_lt.mpr hidx), Except.map]

/-- A command that refuses neither a length nor an index succeeds. -/
theorem abstractCommand_of_not_refuses (hash : List Byte → Digest) (v : BV) {i : Instr} (hlen : ¬ RefusesLength i)
    (hidx : ¬ RefusesIndex i) : ∃ r, (abstractCommand hash v i).2 = .ok r := by
  cases i with
  | load buf =>
    have h256 : buf.length = 256 := by_contra fun h => hlen (.inl ⟨buf, rfl, h⟩)
    obtain ⟨w, hw, -⟩ := bvFromBytes_ok buf h256
    exact ⟨.none, by simp only [abstractCommand, abstractConclusion, hw, Except.map]⟩
  | unpack buf =>
    have h8 : ¬ buf.length % 8 ≠ 0 := fun h => hlen (.inr ⟨buf, rfl, h⟩)
    exact ⟨.words (wordsBE buf), by
      simp only [abstractCommand, abstractConclusion, bcBytesToLongs, if_neg h8, Except.map]⟩
  | bvset idx =>
    have hlt : idx < 2048 := Nat.not_le.mp fun h => hidx ⟨idx, .inl rfl, h⟩
    exact ⟨.none, by simp only [abstractCommand, abstractConclusion, bvSet, bitIndex_nat, dif_pos hlt, Except.map]⟩
  | bvget idx =>
    have hlt : idx < 2048 := Nat.not_le.mp fun h => hidx ⟨idx, .inr rfl, h⟩
    exact ⟨.bool (bitAt v ⟨idx, hlt⟩), by
      simp only [abstractCommand, abstractConclusion, bvGet, bitIndex_nat, dif_pos hlt, Except.map]⟩
  | clear | store | insert _ | contains _ | bitpos _ | bvpop | popcnt _ | u32be _ _ _ _ | pack _ => exact ⟨_, rfl⟩

theorem RefusesLength.not_refusesIndex {i : Instr} (h : RefusesLength i) : ¬ RefusesIndex i := by
  rintro ⟨idx, rfl | rfl, -⟩ <;> rcases h with ⟨_, h, -⟩ | ⟨_, h, -⟩ <;> cases h

/-- The status byte of an answered command says whether and what it refused. -/
theorem status_of_responseFrame {hash : List Byte → Digest} {v : BV} {i : Instr} {st : Byte} {body : List Byte}
    (h : responseFrame (abstractCommand hash v i).2 = st :: body) :
    (st = 0x02 ↔ RefusesLength i) ∧ (st = 0x03 ↔ RefusesIndex i) ∧ (st = 0x00 ∨ st = 0x02 ∨ st = 0x03) := by
  by_cases hlen : RefusesLength i
  · have hidx := hlen.not_refusesIndex
    rw [abstractCommand_of_refusesLength hash v hlen] at h
    obtain rfl : 0x02 = st := (List.cons.inj h).1
    simp [hlen, hidx]
  by_cases hidx : RefusesIndex i
  · rw [abstractCommand_of_refusesIndex hash v hidx] at h
    obtain rfl : 0x03 = st := (List.cons.inj h).1
    simp [hlen, hidx]
  · obtain ⟨r, hr⟩ := abstractCommand_of_not_refuses hash v hlen hidx
    rw [hr] at h
    obtain rfl : 0x00 = st := (List.cons.inj h).1
    simp [hlen, hidx]

theorem rspPort_ne_append (r : Frame) : s.rspPort ≠ s.rspPort ++ [r] := by simp

/-- The response of a command that has answered is that of the abstract command. -/
theorem responseFrame_of_exec {i : Instr} {r : Frame} (h : exec i s = .next t) (hr : t.rspPort = s.rspPort ++ [r]) :
    responseFrame (abstractCommand Config.keccak256 s.bv i).2 = r := by
  obtain hanswered | ⟨w, -, -, hwaits⟩ := exec_cases i s
  · cases hanswered.symm.trans h
    exact List.singleton_inj.mp (List.append_cancel_left hr)
  · cases hwaits.symm.trans h
    exact absurd hr (rspPort_ne_append r)

/-- What a step emits is the response of an illegal frame or of a command. -/
theorem responseFrame_of_step {r : Frame} (h : step s = .next t) (hr : t.rspPort = s.rspPort ++ [r]) :
    (r = [0xFF] ∧ ∃ f rest x, s.cmdPort = f :: rest ∧ decode f = .illegal x) ∨
      ∃ i, responseFrame (abstractCommand Config.keccak256 s.bv i).2 = r := by
  obtain ⟨-, -, rfl⟩ | ⟨f, rest, x, -, hc, hd, rfl⟩ | ⟨f, rest, i, -, -, -, hexec⟩ | ⟨w, -, -, rfl⟩ := step_cases h
  · exact absurd hr (rspPort_ne_append r)
  · exact .inl ⟨(List.singleton_inj.mp (List.append_cancel_left hr)).symm, f, rest, x, hc, hd⟩
  · exact .inr ⟨i, responseFrame_of_exec (s := { s with cmdPort := rest }) hexec hr⟩
  · exact .inr ⟨w.command, List.singleton_inj.mp (List.append_cancel_left hr)⟩

/-- Settles O14: a command's status says whether it refused its length, its index or nothing, and what else a step sends
is the answer to an illegal frame. -/
theorem statusBytesAndTheirSenders : Obligations.StatusBytesAndTheirSenders := by
  refine ⟨⟨rfl, rfl, rfl, rfl, rfl, rfl⟩,
    fun i s t st body h hr => status_of_responseFrame (responseFrame_of_exec h hr), fun s t st body h hr => ?_⟩
  obtain ⟨hframe, hillegal⟩ | ⟨i, hi⟩ := responseFrame_of_step h hr
  · exact .inr (.inr (.inr ⟨(List.cons.inj hframe).1, hillegal⟩))
  · obtain ⟨-, -, hst⟩ := status_of_responseFrame hi
    tauto

end Sys2Proof.Machine

/-! PROOFS. The textual spelling: a line is read as a spelling of an opcode and its operand tokens, what is written of a
command is read back, and aliases spell what mnemonics spell (spec/30_encoding.md R57, R58). -/

namespace Sys2Proof.Machine

/-! ### A line is a spelling and its operand tokens (R57) -/

theorem tokens_takeWhile_token_append {w : List Char} (hw : IsToken w) (rest : List Char) :
    tokens ((w ++ ' ' :: rest).takeWhile (· ≠ '#')) = w :: tokens (rest.takeWhile (· ≠ '#')) := by
  obtain ⟨hspace, hmark, hne⟩ := hw
  have hplain : ∀ c ∈ w, decide (c ≠ '#') = true := fun c hc => decide_eq_true fun h => hmark (h ▸ hc)
  rw [List.takeWhile_append_of_pos hplain, List.takeWhile_cons_of_pos (by decide), tokens_cons_append w _ hspace hne]

theorem assembleLine_token_append {w : List Char} (hw : IsToken w) (rest : List Char) :
    assembleLine (w ++ ' ' :: rest) =
      (opcodeOfSpelling w).bind fun op => assembleOperands op (tokens (rest.takeWhile (· ≠ '#'))) := by
  rw [assembleLine, tokens_takeWhile_token_append hw]

theorem assembleLine_token {w : List Char} (hw : IsToken w) :
    assembleLine w = (opcodeOfSpelling w).bind fun op => assembleOperands op [] := by
  obtain ⟨hspace, hmark, hne⟩ := hw
  rw [assembleLine, takeWhile_no_comment hmark, tokens_singleton w hspace hne]

/-- Tokens written with one space between them, and nothing else, are read back as these tokens. -/
theorem tokens_intercalate {ws : List (List Char)} (h : ∀ w ∈ ws, IsToken w) :
    tokens (([' '].intercalate ws).takeWhile (· ≠ '#')) = ws := by
  induction ws with
  | nil => rfl
  | cons w ws ih =>
    obtain ⟨hw, hws⟩ := List.forall_mem_cons.mp h
    cases ws with
    | nil =>
      obtain ⟨hspace, hmark, hne⟩ := hw
      rw [List.intercalate_singleton, takeWhile_no_comment hmark, tokens_singleton w hspace hne]
    | cons w' ws =>
      rw [List.intercalate_cons_cons, List.append_assoc, List.singleton_append, tokens_takeWhile_token_append hw,
        ih hws]

/-! ### The command read under a row's opcode is of that row -/

theorem noOperand_mnemonic {i j : Instr} {args : List (List Char)} (h : noOperand i args = some j) :
    j.mnemonic = i.mnemonic := by
  cases args with
  | nil => exact congrArg Instr.mnemonic (Option.some.inj h).symm
  | cons t ts => cases h

theorem oneOperand_mnemonic {α : Type} {read : List Char → Option α} {mk : α → Instr} {args : List (List Char)}
    {j : Instr} {mnemonic : String} (h : oneOperand read mk args = some j) (hmk : ∀ a, (mk a).mnemonic = mnemonic) :
    j.mnemonic = mnemonic := by
  match args with
  | [t] =>
    obtain ⟨a, -, rfl⟩ := Option.map_eq_some_iff.mp h
    exact hmk a
  | [] | _ :: _ :: _ => cases h

theorem quadOperands_mnemonic {args : List (List Char)} {j : Instr} (h : quadOperands args = some j) :
    j.mnemonic = "U32BE" := by
  unfold quadOperands at h
  split at h
  case h_1 =>
    split at h
    case h_1 => exact congrArg Instr.mnemonic (Option.some.inj h).symm
    case h_2 => cases h
  case h_2 => cases h

theorem wordOperands_mnemonic {args : List (List Char)} {j : Instr} (h : (wordTokens args).map Instr.pack = some j) :
    j.mnemonic = "PACK" := by
  obtain ⟨ws, -, rfl⟩ := Option.map_eq_some_iff.mp h
  rfl

theorem assembleOperands_mnemonic {args : List (List Char)} {i : Instr} : ∀ r ∈ opcodeTable,
    assembleOperands r.op args = some i → i.mnemonic = r.mnemonic := by
  simp only [opcodeTable, List.cons_append, List.nil_append, List.forall_mem_cons]
  exact ⟨noOperand_mnemonic, fun h => oneOperand_mnemonic h fun _ => rfl, noOperand_mnemonic,
    fun h => oneOperand_mnemonic h fun _ => rfl, fun h => oneOperand_mnemonic h fun _ => rfl,
    fun h => oneOperand_mnemonic h fun _ => rfl, fun h => oneOperand_mnemonic h fun _ => rfl,
    fun h => oneOperand_mnemonic h fun _ => rfl, noOperand_mnemonic, fun h => oneOperand_mnemonic h fun _ => rfl,
    quadOperands_mnemonic, wordOperands_mnemonic, fun h => oneOperand_mnemonic h fun _ => rfl, List.forall_mem_nil _⟩

/-! ### What is written of a command is read back -/

/-- The operands of a command as separate tokens. -/
def operandTokens : Instr → List (List Char)
  | .clear | .store | .bvpop => []
  | .load buf | .popcnt buf | .unpack buf => [bytesText buf]
  | .insert d | .contains d => [optionalText d]
  | .bitpos dg => [bytesText dg.toList]
  | .bvset idx | .bvget idx => [decimalText 8 idx]
  | .u32be b0 b1 b2 b3 => [b0, b1, b2, b3].map (hexNumberText 2 ·.toNat)
  | .pack ws => ws.map (hexNumberText 16 ·.toNat)

theorem operandText_eq_intercalate (i : Instr) : operandText i = [' '].intercalate (operandTokens i) := by
  cases i <;> simp [operandText, operandTokens]

theorem isToken_optionalText (d : Option (List Byte)) : IsToken (optionalText d) := by
  cases d with
  | none => exact ⟨by decide, by decide, by decide⟩
  | some data => exact isToken_bytesText data

theorem isToken_of_mem_operandTokens (i : Instr) : ∀ w ∈ operandTokens i, IsToken w := by
  cases i with
  | clear | store | bvpop => exact List.forall_mem_nil _
  | load _ | popcnt _ | unpack _ | bitpos _ => exact List.forall_mem_singleton.mpr (isToken_bytesText _)
  | insert d | contains d => exact List.forall_mem_singleton.mpr (isToken_optionalText d)
  | bvset idx | bvget idx => exact List.forall_mem_singleton.mpr (isToken_decimalText 8 idx (by decide))
  | u32be _ _ _ _ | pack _ => exact List.forall_mem_map.mpr fun _ _ => isToken_hexNumberText _ _

theorem tokens_operandText (i : Instr) : tokens ((operandText i).takeWhile (· ≠ '#')) = operandTokens i := by
  rw [operandText_eq_intercalate, tokens_intercalate (isToken_of_mem_operandTokens i)]

theorem digestToken_bytesText (dg : Digest) : digestToken (bytesText dg.toList) = some dg := by
  simp only [digestToken, bytesToken_bytesText, Vector.length_toList, dite_true]
  rfl

theorem indexToken_decimalText {idx : Nat} (h : idx < 2 ^ 24) : indexToken (decimalText 8 idx) = some idx := by
  have hvalue := digitsValue_decimalText 8 idx (by omega) (by decide)
  obtain ⟨-, -, hne⟩ := isToken_decimalText 8 idx (by decide)
  obtain ⟨c, cs, hcs⟩ := List.exists_cons_of_ne_nil hne
  rw [hcs] at hvalue ⊢
  simp only [indexToken, hvalue]
  exact if_pos h

theorem hexToken_hexNumberText_of_lt {n v : Nat} (h : v < 16 ^ n) : hexToken n (hexNumberText n v) = some v := by
  rw [hexToken_hexNumberText, Nat.mod_eq_of_lt h]

theorem byteToken_hexNumberText (b : Byte) : byteToken (hexNumberText 2 b.toNat) = some b := by
  rw [byteToken, hexToken_hexNumberText_of_lt b.isLt, Option.map_some, BitVec.ofNat_toNat, BitVec.setWidth_eq]

theorem wordTokens_hexNumberText (ws : List Word) :
    wordTokens (ws.map (hexNumberText 16 ·.toNat)) = some ws := by
  induction ws with
  | nil => rfl
  | cons w ws ih =>
    simp only [List.map_cons, wordTokens, hexToken_hexNumberText_of_lt (n := 16) w.isLt, ih, BitVec.ofNat_toNat,
      BitVec.setWidth_eq]

/-- The opcode of a command (R47). -/
def opcodeOf : Instr → Nat
  | .clear => 0x01
  | .load _ => 0x02
  | .store => 0x03
  | .insert _ => 0x04
  | .contains _ => 0x05
  | .bitpos _ => 0x06
  | .bvset _ => 0x10
  | .bvget _ => 0x11
  | .bvpop => 0x12
  | .popcnt _ => 0x20
  | .u32be _ _ _ _ => 0x21
  | .pack _ => 0x22
  | .unpack _ => 0x23

theorem assembleOperands_operandTokens {i : Instr} (hi : i.wf = true) :
    assembleOperands (opcodeOf i) (operandTokens i) = some i := by
  cases i with
  | clear | store | bvpop => rfl
  | load buf | popcnt buf | unpack buf => exact congrArg (Option.map _) (bytesToken_bytesText buf)
  | insert d | contains d => exact congrArg (Option.map _) (optionalToken_optionalText d)
  | bitpos dg => exact congrArg (Option.map _) (digestToken_bytesText dg)
  | bvset idx => exact congrArg (Option.map _) (indexToken_decimalText ((wfWith_bvset _ idx).mp hi))
  | bvget idx => exact congrArg (Option.map _) (indexToken_decimalText ((wfWith_bvget _ idx).mp hi))
  | u32be b0 b1 b2 b3 => simp [opcodeOf, operandTokens, assembleOperands, quadOperands, byteToken_hexNumberText]
  | pack ws => exact congrArg (Option.map _) (wordTokens_hexNumberText ws)

/-! ### Aliases (R58) -/

/-- The word is a spelling of the row's opcode. -/
def SpellsRow (w : List Char) (r : OpcodeRow) : Prop := IsToken w ∧ opcodeOfSpelling w = some r.op

theorem SpellsRow.assembleLine_eq {w : List Char} {r : OpcodeRow} (h : SpellsRow w r) :
    assembleLine w = assembleOperands r.op [] := by
  rw [assembleLine_token h.1, h.2, Option.bind_some]

theorem SpellsRow.assembleLine_append {w : List Char} {r : OpcodeRow} (h : SpellsRow w r) (rest : List Char) :
    assembleLine (w ++ ' ' :: rest) = assembleOperands r.op (tokens (rest.takeWhile (· ≠ '#'))) := by
  rw [assembleLine_token_append h.1, h.2, Option.bind_some]

theorem exists_row_of_instr (i : Instr) : ∃ r ∈ opcodeTable, r.mnemonic = i.mnemonic ∧ r.op = opcodeOf i := by
  cases i <;> simp [opcodeTable, Instr.mnemonic, opcodeOf, OpcodeRow.op, headerOp, slice]

theorem opcodeOf_eq_op {i : Instr} {r : OpcodeRow} (hr : r ∈ opcodeTable) (h : i.mnemonic = r.mnemonic) :
    opcodeOf i = r.op := by
  obtain ⟨q, hq, hqi, hop⟩ := exists_row_of_instr i
  obtain rfl := opcodeRow_eq_of_mnemonic_eq q hq r hr (hqi.trans h)
  exact hop.symm

/-- Any spelling of a row's opcode, followed by the operands of a well-formed command of the row, spells the command. -/
theorem SpellsRow.assembleLine_operandText {w : List Char} {r : OpcodeRow} {i : Instr} (hw : SpellsRow w r)
    (hr : r ∈ opcodeTable) (hmnemonic : i.mnemonic = r.mnemonic) (hi : i.wf = true) :
    assembleLine (w ++ ' ' :: operandText i) = some i := by
  rw [hw.assembleLine_append, tokens_operandText, ← opcodeOf_eq_op hr hmnemonic, assembleOperands_operandTokens hi]

/-- A command without operands is spelled by the spelling of its opcode alone. -/
theorem SpellsRow.assembleLine_of_no_operand {w : List Char} {r : OpcodeRow} {i : Instr} (hw : SpellsRow w r)
    (hr : r ∈ opcodeTable) (hmnemonic : i.mnemonic = r.mnemonic) (hi : i.wf = true) (hnone : operandTokens i = []) :
    assembleLine w = some i := by
  rw [hw.assembleLine_eq, ← opcodeOf_eq_op hr hmnemonic, ← hnone, assembleOperands_operandTokens hi]

/-- The name spells the opcode of the row of a mnemonic, and so does the mnemonic. -/
def IsAliasOf (name mnemonic : String) : Prop :=
  ∃ r ∈ opcodeTable, r.mnemonic = mnemonic ∧ SpellsRow name.toList r ∧ SpellsRow mnemonic.toList r

/-- Settles O7: each of the names and its mnemonic spell one opcode, so a line is read alike with either. -/
theorem aliasesSpellOneCommand : Obligations.AliasesSpellOneCommand := by
  intro p hp
  have halias : IsAliasOf p.1 p.2 := by
    revert p
    unfold IsAliasOf SpellsRow IsToken
    decide
  obtain ⟨r, hr, hrow, hname, hmnemonic⟩ := halias
  rw [← hrow] at hmnemonic ⊢
  exact ⟨hname.assembleLine_eq.trans hmnemonic.assembleLine_eq.symm,
    fun rest => (hname.assembleLine_append rest).trans (hmnemonic.assembleLine_append rest).symm,
    fun i hi => assembleOperands_mnemonic r hr (hname.assembleLine_eq.symm.trans hi),
    fun rest i hi => assembleOperands_mnemonic r hr ((hname.assembleLine_append rest).symm.trans hi),
    fun i hi hwf => hname.assembleLine_operandText hr hi hwf,
    fun hclear => hname.assembleLine_of_no_operand hr hclear.symm rfl rfl,
    fun hstore => hname.assembleLine_of_no_operand hr hstore.symm rfl rfl⟩

end Sys2Proof.Machine

/-! PROOFS. The bit vector: its constructor checks the size (spec/40_bitvector.md R63), the serialized form (R64, R68),
setting and getting one bit on every integer index (R66, R67), and the commands BVSET and BVGET (R69, R70). -/

namespace Sys2Proof.Machine

/-! ### The constructor (R63) -/

theorem bvNew_error {n : Int} (h : n ≤ 0 ∨ n % 64 ≠ 0) : bvNew n = .error .invalidSize := if_pos h

theorem bvNew_mul_wordBits {k : Nat} (hk : 0 < k) : bvNew (64 * k) = .ok (List.replicate k 0) := by
  have hsize : ¬ ((64 * k : Int) ≤ 0 ∨ (64 * k : Int) % 64 ≠ 0) := by omega
  have hwords : ((64 * k : Int) / 64).toNat = k := by omega
  rw [bvNew, if_neg hsize, hwords]

/-- Settles O28: the check is the size test of `bv_new`, and `bv_new(2048)` is the case of 32 words. -/
theorem bvNewChecksTheSize : Obligations.BvNewChecksTheSize :=
  ⟨fun _ h => bvNew_error h, fun _ hk => bvNew_mul_wordBits hk, bvNew_error (by decide), Laws.numBits_passes_bvNew⟩

/-! ### The serialized form (R64, R68) -/

/-- Settles O31: the two directions are the laws of the word codec. -/
theorem serializedFormRoundTrips : Obligations.SerializedFormRoundTrips := by
  refine ⟨fun b hb => ?_, bvFromBytes_bvToBytes⟩
  obtain ⟨v, hv, -⟩ := bvFromBytes_ok b hb
  exact ⟨v, hv, bvToBytes_of_bvFromBytes hv⟩

/-- Settles O29: the bytes of the vector are those of the buffer, and a word is the number of its eight bytes (O33). -/
theorem fromBytesAssemblesWords : Obligations.FromBytesAssemblesWords := by
  refine fun buf => ⟨bvFromBytes_error buf, fun hlen => ?_⟩
  obtain ⟨v, hv, -⟩ := bvFromBytes_ok buf hlen
  have hbytes := byteAt_of_bvFromBytes hv
  have hbyte (j : Nat) (hj : j < 256) : byteAt v ⟨j, hj⟩ = buf[j]! := by
    rw [List.getElem!_eq_getElem?_getD, hbytes ⟨j, hj⟩, Option.getD_some]
  obtain ⟨-, -, hword⟩ := wordBitAndByteViewsAgree v
  refine ⟨v, hv, hbytes, fun k => ?_⟩
  simp only [hword k, hbyte]

/-! ### Setting and getting one bit (R66, R67) -/

theorem bitIndex_of_outside {i : Int} (h : i < 0 ∨ 2048 ≤ i) : bitIndex i = .error .indexOutOfRange := dif_pos h

theorem bvSet_of_outside (v : BV) {i : Int} (h : i < 0 ∨ 2048 ≤ i) : bvSet v i = .error .indexOutOfRange := by
  rw [bvSet, bitIndex_of_outside h]; rfl

theorem bvGet_of_outside (v : BV) {i : Int} (h : i < 0 ∨ 2048 ≤ i) : bvGet v i = .error .indexOutOfRange := by
  rw [bvGet, bitIndex_of_outside h]; rfl

theorem bvSet_of_lt (v : BV) {n : Nat} (h : n < 2048) : bvSet v n = .ok (setBit v ⟨n, h⟩) := by
  rw [bvSet, bitIndex_nat, dif_pos h]; rfl

theorem bvGet_of_lt (v : BV) {n : Nat} (h : n < 2048) : bvGet v n = .ok (bitAt v ⟨n, h⟩) := by
  rw [bvGet, bitIndex_nat, dif_pos h]; rfl

/-- The words after setting bit `i` (R66): `W[k]` with bit `63 - (i mod 64)` at `k = i / 64`, the old ones elsewhere. -/
theorem setBit_getElem_toNat (v : BV) (i : BitIndex) (k : Nat) (hk : k < 32) :
    (setBit v i)[k].toNat = if k = i.val / 64 then v[k].toNat ||| 2 ^ (63 - i.val % 64) else v[k].toNat := by
  rw [setBit, Vector.getElem_set]
  by_cases h : k = i.val / 64
  · have hbit : 63 - i.val % 64 < 64 := by omega
    subst h
    rw [if_pos rfl, if_pos rfl, BitVec.toNat_or, BitVec.toNat_twoPow_of_lt hbit]
  · rw [if_neg (Ne.symm h), if_neg h]

/-- Settles O30: an integer outside the range is refused, and one inside is a natural number that names a bit. -/
theorem setAndGetCheckTheIndex : Obligations.SetAndGetCheckTheIndex := by
  refine fun v i => ⟨fun h => ⟨bvSet_of_outside v h, bvGet_of_outside v h⟩, fun h0 h => ?_⟩
  lift i to Nat using h0
  have hi : i < 2048 := by omega
  exact ⟨⟨_, bvSet_of_lt v hi, setBit_getElem_toNat v ⟨i, hi⟩⟩, by omega, bvGet_of_lt v hi⟩

/-! ### BVSET and BVGET (R69, R70) -/

/-- The frame of format I (R45): the opcode, the index in three bytes, no payload. -/
theorem frameOf_index (op : Nat) {idx : Nat} (hidx : idx < 2 ^ 24) : frameOf op idx [] =
    [BitVec.ofNat 8 op, BitVec.ofNat 8 (idx / 65536), BitVec.ofNat 8 (idx / 256), BitVec.ofNat 8 idx] := by
  have hfirst : (op * 2 ^ 24 + idx) / 256 ^ 3 = op := by omega
  have hrest : beBytes 3 (op * 2 ^ 24 + idx) = beBytes 3 idx := beBytes_congr (by omega)
  rw [frameOf, beBytes, hfirst, hrest]
  simp [beBytes]

theorem exec_bvset_of_lt {idx : Nat} (h : idx < 2048) (s : State) :
    exec (.bvset idx) s = .next ((s.setBV (setBit s.bv ⟨idx, h⟩)).respond .none) := by
  rw [exec, execBvset, bvSet_of_lt s.bv h]; rfl

theorem exec_bvset_of_le {idx : Nat} (h : 2048 ≤ idx) (s : State) :
    exec (.bvset idx) s = .next (s.raise .indexOutOfRange) := by
  rw [exec, execBvset, bvSet_of_outside s.bv (by omega)]; rfl

theorem exec_bvget_of_lt {idx : Nat} (h : idx < 2048) (s : State) :
    exec (.bvget idx) s = .next (s.respond (.bool (bitAt s.bv ⟨idx, h⟩))) := by
  rw [exec, execBvget, bvGet_of_lt s.bv h]; rfl

theorem exec_bvget_of_le {idx : Nat} (h : 2048 ≤ idx) (s : State) :
    exec (.bvget idx) s = .next (s.raise .indexOutOfRange) := by
  rw [exec, execBvget, bvGet_of_outside s.bv (by omega)]; rfl

/-- Settles O26: in range the filter is that of `setBit`, whose bits are the old ones and the one at the index. -/
theorem bvsetSetsOneBit : Obligations.BvsetSetsOneBit := by
  refine fun idx s => ⟨fun h => frameOf_index _ h, fun h => ⟨_, exec_bvset_of_lt h s, fun j => ?_⟩,
    fun h => exec_bvset_of_le h s⟩
  simp only [State.setBV_bv, bitAt_setBit, Fin.ext_iff]

/-- Settles O27: in range the answer is the bit, out of range the error; neither writes the filter. -/
theorem bvgetReadsOneBit : Obligations.BvgetReadsOneBit :=
  fun _ s => ⟨fun h => frameOf_index _ h, fun h => exec_bvget_of_lt h s, fun h => exec_bvget_of_le h s⟩

end Sys2Proof.Machine

/-! PROOFS. The Bloom filter: the mapping from a digest to bit positions (spec/41_bloomfilter.md R72), and what CLEAR,
LOAD, STORE, INSERT, CONTAINS and BITPOS answer and leave in the filter (R75 to R80, R85). -/

namespace Sys2Proof.Machine

/-! ### The position of a byte pair (R72) -/

/-- Exclusive or with all ones in `n` bits is the complement, which subtracts from `2^n - 1`. -/
theorem xor_two_pow_sub_one {n x : Nat} (h : x < 2 ^ n) : x ^^^ (2 ^ n - 1) = 2 ^ n - 1 - x := by
  have hnot := congrArg BitVec.toNat (BitVec.xor_allOnes (x := BitVec.ofNat n x))
  rwa [BitVec.toNat_xor, BitVec.toNat_allOnes, BitVec.toNat_not, BitVec.toNat_ofNat, Nat.mod_eq_of_lt h] at hnot

/-- The low 11 bits of a byte pair: the low 3 bits of the first byte, and the second byte. -/
theorem pair_low11 (d0 d1 : Byte) :
    (d0.toNat &&& 0x07) * 256 + d1.toNat = (d0.toNat * 256 + d1.toNat) % 2048 := by
  have hlow : d0.toNat &&& 0x07 = d0.toNat % 2 ^ 3 := Nat.and_two_pow_sub_one_eq_mod d0.toNat 3
  have hd1 := d1.isLt
  omega

/-- Settles O44: the position is that of the pair's number, and subtracting it from 2047 complements its low 11 bits. -/
theorem bitPositionOfABytePair : Obligations.BitPositionOfABytePair := by
  refine fun d0 d1 => ⟨bfH_toNat d0 d1, bfPos_val d0 d1, ?_⟩
  have hlt : (d0.toNat * 256 + d1.toNat) % 2048 < 2 ^ 11 := Nat.mod_lt _ (by decide)
  rw [bfPos_val, pair_low11]
  exact (xor_two_pow_sub_one hlt).symm

/-! ### CLEAR (R75) -/

theorem eq_emptyBV_of_bits {v : BV} (h : ∀ i, bitAt v i = false) : v = emptyBV :=
  bv_ext_bits fun i => (h i).trans (bitAt_emptyBV i).symm

theorem clear_or_load_of_endsLifetime {i : Instr} (h : i.endsLifetime = true) :
    i = .clear ∨ ∃ buf, i = .load buf := by
  cases i with
  | clear => exact .inl rfl
  | load buf => exact .inr ⟨buf, rfl⟩
  | store | insert _ | contains _ | bitpos _ | bvset _ | bvget _ | bvpop | popcnt _ | u32be _ _ _ _ | pack _
  | unpack _ => cases h

/-- Only a command that ends the lifetime, so only CLEAR or LOAD, turns a set bit off (R23, R75). -/
theorem clear_or_load_of_bit_lost {i : Instr} {s t : State} {j : BitIndex} (h : exec i s = .next t)
    (hset : bitAt s.bv j = true) (hlost : bitAt t.bv j = false) : i = .clear ∨ ∃ buf, i = .load buf := by
  cases hi : i.endsLifetime with
  | true => exact clear_or_load_of_endsLifetime hi
  | false => cases hlost.symm.trans (bitAt_exec_of_not_endsLifetime hi h hset)

/-- Settles O20: CLEAR leaves the empty vector, and every command that ends no lifetime keeps the set bits. -/
theorem clearEmptiesTheFilter : Obligations.ClearEmptiesTheFilter :=
  ⟨rfl,
    fun s => ⟨emptyBV, exec_clear s, bitAt_emptyBV, emptyBV_getElem, fun h => (eq_emptyBV_of_bits h).symm⟩,
    fun _ _ _ _ h hset hlost => clear_or_load_of_bit_lost h hset hlost⟩

/-! ### STORE (R77) -/

theorem exec_store (s : State) : exec .store s = .next (s.respond (.bytes (bvToBytes s.bv))) := rfl

theorem bvToBytes_getElem? (v : BV) (j : Fin 256) : (bvToBytes v)[j.val]? = some (byteAt v j) :=
  byteAt_of_bvFromBytes (bvFromBytes_bvToBytes v) j

theorem bvToBytes_emptyBV : bvToBytes emptyBV = List.replicate 256 0x00 := by
  rw [bvToBytes_eq_ofFn, funext byteAt_emptyBV, List.ofFn_const]

/-- Settles O22: what STORE answers is the serialized form, which is the byte view in order. -/
theorem storeReadsTheFilter : Obligations.StoreReadsTheFilter := by
  refine ⟨rfl, fun s => ⟨bvToBytes s.bv, exec_store s, bvToBytes_length _, bvToBytes_getElem? _,
    (memRead_all s.bv _).symm⟩, fun s h => ?_⟩
  rw [← bvToBytes_emptyBV, ← eq_emptyBV_of_bits h]
  exact exec_store s

/-! ### The digest commands (R78, R79, R85) -/

theorem exec_insert_absent (s : State) : exec (.insert none) s = .next (s.respond .none) := rfl

theorem exec_contains_absent (s : State) : exec (.contains none) s = .next (s.respond (.bool false)) := rfl

/-- Settles O48: an absent operand is answered before a digest is asked for. -/
theorem absentOperandConvention : Obligations.AbsentOperandConvention :=
  fun s => ⟨exec_insert_absent s, exec_contains_absent s⟩

/-- The bits after INSERT of data: the old ones and those of its digest (R78). -/
theorem bitAt_bfInsert_some (hash : List Byte → Digest) (v : BV) (data : List Byte) (i : BitIndex) :
    bitAt (bfInsert hash v (some data)) i = true ↔ bitAt v i = true ∨ DigestBit (hash data) i := by
  rw [bfInsert, bitAt_bfMark, mem_bfPositions]

/-- CONTAINS of data says whether every bit of its digest is set (R79). -/
theorem bfContains_some_iff (hash : List Byte → Digest) (v : BV) (data : List Byte) :
    bfContains hash v (some data) = true ↔ ∀ i, DigestBit (hash data) i → bitAt v i = true := by
  simp only [bfContains, bfTest_iff, mem_bfPositions]

/-- Settles O23: with a reply INSERT leaves the marked filter, whose bits are the old ones and those of the digest. -/
theorem insertSetsTheDigestBits : Obligations.InsertSetsTheDigestBits :=
  ⟨rfl, exec_insert_absent, fun _ => rfl,
    fun data s hr => ⟨bfInsert Config.keccak256 s.bv (some data), exec_of_replies (.insert (some data)) s hr,
      bitAt_bfInsert_some _ s.bv data⟩⟩

/-- Settles O24: with a reply CONTAINS answers the test of the digest's bits. -/
theorem containsTestsTheDigestBits : Obligations.ContainsTestsTheDigestBits :=
  ⟨rfl, exec_contains_absent, fun _ => rfl,
    fun data s hr => ⟨bfContains Config.keccak256 s.bv (some data), exec_of_replies (.contains (some data)) s hr,
      bfContains_some_iff _ s.bv data⟩⟩

/-! ### LOAD (R76) -/

theorem exec_load_of_length_ne {buf : List Byte} (h : buf.length ≠ 256) (s : State) :
    exec (.load buf) s = .next (s.raise .invalidLength) := by
  rw [exec, execLoad, bvFromBytes_error buf h]
  rfl

/-- Loading a buffer is writing its 256 bytes over the whole byte space (R76). -/
theorem eq_memWrite_of_bvFromBytes {b : Vector Byte 256} {v : BV} (h : bvFromBytes b.toList = .ok v) (w : BV) :
    v = memWrite w 0 256 b := by
  refine bv_ext_bytes fun j => ?_
  have hj : 0 ≤ j.val ∧ j.val < 0 + 256 := by omega
  have hbyte : some b[j.val] = some (byteAt v j) := by
    rw [← byteAt_of_bvFromBytes h j, Vector.getElem?_toList, Vector.getElem?_eq_getElem]
  rw [byteAt_memWrite, dif_pos hj]
  exact (Option.some.inj hbyte).symm

theorem exec_load_zeros (s : State) : exec (.load (List.replicate 256 0x00)) s = exec .clear s := by
  rw [exec_clear, ← bvToBytes_emptyBV, exec_load_of_ok (bvFromBytes_bvToBytes emptyBV)]

/-- Every bit is set once every byte is `FF`. -/
theorem bitAt_of_bvFromBytes_ones {v : BV} (h : bvFromBytes (List.replicate 256 0xFF) = .ok v) (i : BitIndex) :
    bitAt v i = true := by
  have hi : i.val / 8 < 256 := by omega
  have hbyte := byteAt_of_bvFromBytes h ⟨i.val / 8, hi⟩
  rw [List.getElem?_replicate_of_lt hi] at hbyte
  have hbit : 7 - i.val % 8 < 8 := by omega
  rw [bitAt_eq_byteAt, ← Option.some.inj hbyte]
  exact (BitVec.getLsbD_allOnes (v := 8)).trans (decide_eq_true hbit)

/-- On a filter with every bit set CONTAINS of data answers true. -/
theorem exec_contains_of_full {t u : State} {data : List Byte} (hr : t.digestReplies = true)
    (hfull : ∀ i, bitAt t.bv i = true) (h : exec (.contains (some data)) t = .next u) :
    u.rspPort = t.rspPort ++ [[0x00, 0x01]] := by
  have htrue : bfContains Config.keccak256 t.bv (some data) = true :=
    (bfContains_some_iff _ t.bv data).mpr fun i _ => hfull i
  rw [exec_eq_answered hr h]
  simp only [answered, abstractCommand, abstractConclusion, htrue]
  rfl

/-- Settles O21: LOAD deserializes its operand, or refuses its length. -/
theorem loadReplacesTheFilter : Obligations.LoadReplacesTheFilter := by
  refine fun buf s => ⟨rfl, fun hlen => ?_, fun hlen => exec_load_of_length_ne hlen s, ?_, ?_⟩
  · obtain ⟨v, hv, -⟩ := bvFromBytes_ok buf hlen
    refine ⟨v, exec_load_of_ok hv s, byteAt_of_bvFromBytes hv, ?_⟩
    rintro b rfl
    exact eq_memWrite_of_bvFromBytes hv s.bv
  · rintro rfl
    exact exec_load_zeros s
  · rintro rfl
    obtain ⟨v, hv, -⟩ := bvFromBytes_ok _ List.length_replicate
    have hfull := bitAt_of_bvFromBytes_ones hv
    exact ⟨_, exec_load_of_ok hv s, hfull, fun data u hr h => exec_contains_of_full hr hfull h⟩

/-! ### BITPOS (R80) -/

theorem exec_bitpos (dg : Digest) (s : State) : exec (.bitpos dg) s = .next (s.respond (.positions
    (bfPairPos dg 0 (by decide)) (bfPairPos dg 2 (by decide)) (bfPairPos dg 4 (by decide)))) := rfl

theorem bfPairPos_val (dg : Digest) (i : Nat) (h : i + 1 < 32) :
    (bfPairPos dg i h).val = 2047 - (dg[i].toNat * 256 + dg[i + 1].toNat) % 2048 := bfPos_val _ _

/-- A number in two bytes, most significant first. -/
theorem beBytes_two (n : Nat) : beBytes 2 n = [BitVec.ofNat 8 (n / 256), BitVec.ofNat 8 (n % 256)] := by
  have hlow : BitVec.ofNat 8 n = BitVec.ofNat 8 (n % 256) := BitVec.eq_of_toNat_eq (by simp)
  simp [beBytes, ← hlow]

/-- Settles O25: each position is that of its byte pair, and is answered in two bytes. -/
theorem bitposAnswersThePositions : Obligations.BitposAnswersThePositions := by
  refine fun dg s => ⟨_, _, _, rfl, bfPairPos_val dg 0 (by decide), bfPairPos_val dg 2 (by decide),
    bfPairPos_val dg 4 (by decide), ?_⟩
  rw [exec_bitpos, State.respond, State.emit, responseFrame, resultBytes]
  simp only [beBytes_two, List.cons_append, List.nil_append]
  rfl

end Sys2Proof.Machine

/-! PROOFS. The byte codec: the number of set bits of a byte sequence and of the filter (spec/42_bytecodec.md R89, R95),
and what BVPOP, POPCNT, U32BE, PACK and UNPACK answer (R94 to R98). -/

namespace Sys2Proof.Machine

/-! ### Counting set bits (R89, R95) -/

theorem byteOnes_eq_card (b : Byte) :
    byteOnes b = (Finset.univ.filter fun k : Fin 8 => b.getLsbD k.val = true).card := by
  have hcount : byteOnes b = Nat.count (fun k => b.getLsbD k = true) 8 := by
    simp only [byteOnes, Nat.count, Bool.decide_eq_true]
  rw [hcount, Nat.count_eq_card_filter_range, Finset.card_filter, Finset.sum_range, Finset.card_filter]

/-- Byte `j` holds the vector bits `8j` to `8j + 7`, its most significant bit first (R14). -/
theorem byteOnes_byteAt (v : BV) (j : Fin 256) :
    byteOnes (byteAt v j) = ∑ m : Fin 8, if bitAt v (finProdFinEquiv (j, m)) = true then 1 else 0 := by
  rw [byteOnes_eq_card, Finset.card_filter, ← Equiv.sum_comp Fin.revPerm]
  refine Finset.sum_congr rfl fun m _ => ?_
  have hbit : (⟨8 * j.val + (7 - (Fin.rev m).val), by omega⟩ : BitIndex) = finProdFinEquiv (j, m) := by
    apply Fin.ext
    simp only [finProdFinEquiv_apply_val, Fin.val_rev]
    omega
  rw [Fin.revPerm_apply, byteAt_getLsbD v j _ (Fin.rev m).isLt, hbit]

theorem bitCount_eq_sum_byteOnes (v : BV) : bitCount v = ∑ j, byteOnes (byteAt v j) := by
  simp only [byteOnes_byteAt]
  rw [bitCount, Finset.card_filter, ← Fintype.sum_prod_type']
  exact (Equiv.sum_comp (finProdFinEquiv (m := 256) (n := 8)) fun i => if bitAt v i = true then 1 else 0).symm

/-- The set bits of the serialized filter are those of the filter (R95). -/
theorem bcPopcount_bvToBytes (v : BV) : bcPopcount (bvToBytes v) = bitCount v := by
  rw [bcPopcount, bvToBytes_eq_ofFn, List.map_ofFn, List.sum_ofFn, bitCount_eq_sum_byteOnes]
  rfl

theorem bitCount_le (v : BV) : bitCount v ≤ 2048 :=
  (Finset.card_le_univ _).trans (Fintype.card_fin 2048).le

/-- On the empty filter INSERT sets the three positions of the digest, which may coincide, and no other bit. -/
theorem bitCount_bfInsert_of_empty (hash : List Byte → Digest) {v : BV} (hv : ∀ i, bitAt v i = false)
    (data : List Byte) : bitCount (bfInsert hash v (some data)) = (bfPositions (hash data)).toFinset.card := by
  refine congrArg Finset.card (Finset.ext fun i => ?_)
  simp [bitAt_bfInsert_some, mem_bfPositions, hv]

/-! ### BVPOP (R95) -/

theorem exec_bvpop (s : State) : exec .bvpop s = .next (s.respond (.count (bitCount s.bv))) := by
  rw [← bcPopcount_bvToBytes]
  rfl

/-- Settles O37: the bits of the serialized form are counted byte by byte, and INSERT sets three positions. -/
theorem bvpopCountsTheFilter : Obligations.BvpopCountsTheFilter := by
  refine ⟨rfl, fun s => ⟨exec_bvpop s, bitCount_le s.bv⟩, fun data s t hr hempty h => ?_⟩
  have hcount : bitCount t.bv = (bfPositions (Config.keccak256 data)).toFinset.card := by
    rw [exec_eq_answered hr h]
    exact bitCount_bfInsert_of_empty Config.keccak256 hempty data
  rw [hcount]
  exact ⟨Finset.card_pos.mpr ⟨_, List.mem_toFinset.mpr List.mem_cons_self⟩, List.toFinset_card_le _⟩

/-! ### POPCNT (R94) -/

theorem exec_popcnt (buf : List Byte) (s : State) :
    exec (.popcnt buf) s = .next (s.respond (.count (bcPopcount buf))) := rfl

/-- The count of an operand that a frame can carry fits the four bytes of the answer (R94). -/
theorem beNat_beBytes_bcPopcount {buf : List Byte} (h : (Instr.popcnt buf).wf = true) :
    beNat (beBytes 4 (bcPopcount buf)) = bcPopcount buf := by
  have hlen : buf.length ≤ 16777215 := (wfWith_popcnt Config.maxPayload buf).mp h
  have hcount := bcPopcount_le buf
  rw [beNat_beBytes, Nat.mod_eq_of_lt (by omega)]

/-- Settles O38: the answer is the sum of the counts of the bytes, each at most 8. -/
theorem popcntCountsTheOperand : Obligations.PopcntCountsTheOperand := by
  refine fun buf s => ⟨bcPopcount buf, rfl, ?_, bcPopcount_le buf, exec_popcnt buf s, beNat_beBytes_bcPopcount⟩
  rw [bcPopcount, funext byteOnes_eq_card]

/-! ### U32BE (R96) -/

theorem exec_u32be (b0 b1 b2 b3 : Byte) (s : State) : exec (.u32be b0 b1 b2 b3) s =
    .next (s.respond (.u32 (bcU32FromBytes b0.toNat b1.toNat b2.toNat b3.toNat))) := rfl

/-- The value on the wire is its four bytes again (R96). -/
theorem resultBytes_bcU32FromBytes (b0 b1 b2 b3 : Byte) :
    resultBytes (.u32 (bcU32FromBytes b0.toNat b1.toNat b2.toNat b3.toNat)) = [b0, b1, b2, b3] := by
  rw [resultBytes, bcU32FromBytes_toNat]
  exact beBytes_beNat [b0, b1, b2, b3]

/-- Settles O39: the value is the big-endian number of the four bytes, so its bytes are those four. -/
theorem u32beAnswersItsBytes : Obligations.U32beAnswersItsBytes := by
  refine fun b0 b1 b2 b3 s => ⟨rfl, ?_, ?_⟩
  · rw [exec_u32be, State.respond, State.emit, responseFrame, resultBytes_bcU32FromBytes]
    rfl
  · rw [bcU32FromBytes_toNat]
    simp only [beNat_cons, beNat_nil, List.length_cons, List.length_nil]
    omega

/-! ### PACK (R97) -/

theorem exec_pack (ws : List Word) (s : State) :
    exec (.pack ws) s = .next (s.respond (.bytes (bcLongsToBytes ws))) := rfl

/-- Byte `8k + m` is `ws[k][63-8m : 56-8m]` (R91). -/
theorem bcLongsToBytes_getElem?_word (ws : List Word) {k m : Nat} (hk : k < ws.length) (hm : m < 8) :
    (bcLongsToBytes ws)[8 * k + m]? = some (ws[k].extractLsb' (56 - 8 * m) 8) := by
  have hlt : 8 * k + m < (bcLongsToBytes ws).length := by
    rw [bcLongsToBytes_length]
    omega
  have hdiv : (8 * k + m) / 8 = k := by omega
  have hmod : (8 * k + m) % 8 = m := by omega
  rw [List.getElem?_eq_getElem hlt, bcLongsToBytes_getElem]
  simp only [hdiv, hmod]

/-- Settles O40: the payload of the frame and the answer are both the bytes of the words. -/
theorem packAnswersTheBytesOfItsWords : Obligations.PackAnswersTheBytesOfItsWords :=
  fun ws s => ⟨bcLongsToBytes ws, rfl, exec_pack ws s, bcLongsToBytes_length ws,
    fun _ _ hk hm => bcLongsToBytes_getElem?_word ws hk hm⟩

/-! ### UNPACK (R98) -/

theorem bcBytesToLongs_ok {buf : List Byte} (h : buf.length % 8 = 0) : bcBytesToLongs buf = .ok (wordsBE buf) :=
  if_neg (not_not_intro h)

theorem bcBytesToLongs_error {buf : List Byte} (h : buf.length % 8 ≠ 0) :
    bcBytesToLongs buf = .error .invalidLength := if_pos h

theorem exec_unpack_of_ok {buf : List Byte} {ws : List Word} (h : bcBytesToLongs buf = .ok ws) (s : State) :
    exec (.unpack buf) s = .next (s.respond (.words ws)) := by
  rw [exec, execUnpack, h]
  rfl

theorem exec_unpack_of_error {buf : List Byte} {k : ErrorKind} (h : bcBytesToLongs buf = .error k) (s : State) :
    exec (.unpack buf) s = .next (s.raise k) := by
  rw [exec, execUnpack, h]
  rfl

/-- Settles O41: the words of a buffer of whole words have its bytes, and any other length is refused. -/
theorem unpackAnswersTheWordsOfItsBytes : Obligations.UnpackAnswersTheWordsOfItsBytes := by
  refine fun buf s => ⟨rfl, fun h => ?_, fun h => exec_unpack_of_error (bcBytesToLongs_error h) s⟩
  have hok := bcBytesToLongs_ok h
  have hbytes : bcLongsToBytes (wordsBE buf) = buf := bcLongsToBytes_wordsBE (buf.length / 8) buf (by omega)
  refine ⟨?_, wordsBE buf, hok, wordsBE_length buf, hbytes⟩
  rw [exec_unpack_of_ok hok, State.respond, State.emit, responseFrame, resultBytes, hbytes]
  rfl

end Sys2Proof.Machine

/-! PROOFS. Errors: a command that ends in an error changes nothing but the response port (spec/60_exceptions.md R110). -/

namespace Sys2Proof.Machine

variable {s t : State}

theorem exists_error_of_status_ne_ok {r : Response} {st : Byte} {body : List Byte}
    (h : responseFrame r = st :: body) (hst : st ≠ 0x00) : ∃ k, r = .error k := by
  cases r with
  | ok _ => exact absurd (List.cons.inj h).1.symm hst
  | error k => exact ⟨k, rfl⟩

theorem abstractCommand_bv_of_error {hash : List Byte → Digest} {v : BV} {i : Instr} {k : ErrorKind}
    (h : (abstractCommand hash v i).2 = .error k) : (abstractCommand hash v i).1 = v := by
  unfold abstractCommand at h ⊢
  cases hc : abstractConclusion hash v i with
  | ok _ => rw [hc] at h; cases h
  | error _ => rfl

/-- The commands with a digest transaction never fail. -/
theorem digestRequests_of_error {hash : List Byte → Digest} {v : BV} {i : Instr} {k : ErrorKind}
    (h : (abstractCommand hash v i).2 = .error k) : i.digestRequests = [] := by
  refine digestRequests_eq_nil fun data => ⟨?_, ?_⟩
  · rintro rfl
    cases h
  · rintro rfl
    cases h

/-- A command that fails at the abstract level only raises its error. -/
theorem exec_of_error {i : Instr} {k : ErrorKind} (h : (abstractCommand Config.keccak256 s.bv i).2 = .error k) :
    exec i s = .next (s.raise k) := by
  have hdig := digestRequests_of_error h
  rw [exec_of_no_digest i s hdig, answered, abstractCommand_bv_of_error h, h, hdig, List.append_nil]
  rfl

/-- A step that answers the frame it takes with an error only raises that error. -/
theorem step_raises_of_status_ne_ok {f : Frame} {rest : List Frame} {st : Byte} {body : List Byte}
    (hw : s.digestWait = none) (hc : s.cmdPort = f :: rest) (h : step s = .next t)
    (hr : t.rspPort = s.rspPort ++ [st :: body]) (hst : st ≠ 0x00) :
    ∃ k, t = State.raise k { s with cmdPort := rest } := by
  cases hd : decode f with
  | illegal x => exact ⟨.illegalCommand, Host.Outcome.next.inj (h.symm.trans (step_of_illegal hw hc hd))⟩
  | command i =>
    rw [step_of_command hw hc hd] at h
    obtain ⟨k, hk⟩ := exists_error_of_status_ne_ok (responseFrame_of_exec h hr) hst
    exact ⟨k, Host.Outcome.next.inj (h.symm.trans (exec_of_error hk))⟩

/-- Settles O15: the error that the step raises is the whole of its response and of its effect. -/
theorem errorChangesNothing : Obligations.ErrorChangesNothing := by
  intro s t f rest st body hw hc h hr hst
  obtain ⟨k, rfl⟩ := step_raises_of_status_ne_ok hw hc h hr hst
  obtain ⟨rfl, rfl⟩ : statusOf k = st ∧ [] = body :=
    List.cons.inj (List.singleton_inj.mp (List.append_cancel_left hr))
  exact ⟨rfl, rfl⟩

end Sys2Proof.Machine

/-! PROOFS. Frames and commands are one to one: a command is the fields of its frame, decoding them gives it back, and a
legal frame has no other fields than those of its command (spec/30_encoding.md R44 to R48). -/

namespace Sys2Proof

open Sys2Proof.Machine

/-! ### The fields of a command's frame (R45) -/

/-- The operand field that a command's frame carries: the index of format I, the bit `A` of format D, else zero. -/
def argOf : Instr → Nat
  | .insert none | .contains none => 1
  | .bvset idx | .bvget idx => idx
  | .clear | .load _ | .store | .insert (some _) | .contains (some _) | .bitpos _ | .bvpop | .popcnt _
  | .u32be _ _ _ _ | .pack _ | .unpack _ => 0

/-- The payload that a command's frame carries. -/
def dataOf : Instr → List Byte
  | .load buf | .popcnt buf | .unpack buf => buf
  | .insert (some data) | .contains (some data) => data
  | .bitpos dg => dg.toList
  | .u32be b0 b1 b2 b3 => [b0, b1, b2, b3]
  | .pack ws => bcLongsToBytes ws
  | .clear | .store | .insert none | .contains none | .bvset _ | .bvget _ | .bvpop => []

theorem encode_eq_frameOf (i : Instr) : encode i = frameOf (opcodeOf i) (argOf i) (dataOf i) := by
  cases i with
  | insert d | contains d => cases d <;> rfl
  | _ => rfl

theorem opcodeOf_lt (i : Instr) : opcodeOf i < 256 := by
  cases i <;> simp [opcodeOf]

/-- A command is well formed exactly when its operand field fits 24 bits and its payload is not too long (R46, R55). -/
theorem wfWith_iff_fields (m : Nat) (i : Instr) : i.wfWith m = true ↔ argOf i < 2 ^ 24 ∧ (dataOf i).length ≤ m := by
  cases i with
  | insert d | contains d => cases d <;> simp [Instr.wfWith, argOf, dataOf]
  | bvset idx => exact (wfWith_bvset m idx).trans (by simp [argOf, dataOf])
  | bvget idx => exact (wfWith_bvget m idx).trans (by simp [argOf, dataOf])
  | _ => simp [Instr.wfWith, argOf, dataOf]

/-! ### Decoding what was encoded -/

/-- The fields of a command decode to the command, whatever its operands: the bounds of well-formedness only say that
the fields fit a frame. -/
theorem decodeFields_fields (i : Instr) : decodeFields (opcodeOf i) (argOf i) (dataOf i) = .command i := by
  cases i with
  | insert d | contains d => cases d <;> rfl
  | bitpos dg => exact dif_pos dg.length_toList
  | pack ws => simp [opcodeOf, argOf, dataOf, decodeFields, requireZeroArg]
  | _ => rfl

theorem decodeWith_encode {m : Nat} {i : Instr} (h : i.wfWith m = true) : decodeWith m (encode i) = .command i := by
  obtain ⟨harg, hdata⟩ := (wfWith_iff_fields m i).mp h
  rw [encode_eq_frameOf, decodeWith_frameOf m _ _ _ (opcodeOf_lt i) harg hdata, decodeFields_fields]

theorem decode_encode {i : Instr} (h : i.wf = true) : decode (encode i) = .command i := decodeWith_encode h

/-- Settles O1: the frame of a well-formed command carries its fields, and these decode to the command. -/
theorem decodeOfEncodeIsTheCommand : Obligations.DecodeOfEncodeIsTheCommand := fun _ _ h => decodeWith_encode h

/-! ### Encoding what was decoded -/

/-- The opcode, the operand field and the payload are those of the command. -/
def AreFieldsOf (op arg : Nat) (p : List Byte) (i : Instr) : Prop := op = opcodeOf i ∧ arg = argOf i ∧ p = dataOf i

theorem requireZeroArg_eq_command {arg : Nat} {ok : Bool} {c i : Instr} (h : requireZeroArg arg ok c = .command i) :
    arg = 0 ∧ ok = true ∧ c = i := by
  unfold requireZeroArg at h
  split at h
  case isTrue => cases h
  case isFalse harg =>
    split at h
    case isTrue hok => exact ⟨not_not.mp harg, hok, Decoded.command.inj h⟩
    case isFalse => cases h

theorem decodeOptional_eq_command {arg : Nat} {p : List Byte} {mk : Option (List Byte) → Instr} {i : Instr}
    (h : decodeOptional arg p mk = .command i) : arg = 0 ∧ mk (some p) = i ∨ arg = 1 ∧ p = [] ∧ mk none = i := by
  unfold decodeOptional at h
  split at h
  case isTrue h0 => exact .inl ⟨h0, Decoded.command.inj h⟩
  case isFalse =>
    split at h
    case isTrue h1 =>
      split at h
      case isTrue hp => exact .inr ⟨h1, List.eq_nil_of_length_eq_zero hp, Decoded.command.inj h⟩
      case isFalse => cases h
    case isFalse => cases h

theorem decodeIndex_eq_command {arg : Nat} {p : List Byte} {mk : Nat → Instr} {i : Instr}
    (h : decodeIndex arg p mk = .command i) : p = [] ∧ mk arg = i := by
  unfold decodeIndex at h
  split at h
  case isTrue hp => exact ⟨List.eq_nil_of_length_eq_zero hp, Decoded.command.inj h⟩
  case isFalse => cases h

theorem decodeDigest_eq_command {arg : Nat} {p : List Byte} {i : Instr} (h : decodeDigest arg p = .command i) :
    arg = 0 ∧ ∃ dg : Digest, dg.toList = p ∧ .bitpos dg = i := by
  unfold decodeDigest at h
  split at h
  case isTrue => cases h
  case isFalse harg =>
    split at h
    case isTrue => exact ⟨not_not.mp harg, _, rfl, Decoded.command.inj h⟩
    case isFalse => cases h

theorem decodeQuad_eq_command {arg : Nat} {p : List Byte} {i : Instr} (h : decodeQuad arg p = .command i) :
    arg = 0 ∧ ∃ b0 b1 b2 b3, [b0, b1, b2, b3] = p ∧ .u32be b0 b1 b2 b3 = i := by
  unfold decodeQuad at h
  split at h
  case isTrue => cases h
  case isFalse harg =>
    split at h
    case h_1 => exact ⟨not_not.mp harg, _, _, _, _, rfl, Decoded.command.inj h⟩
    case h_2 => cases h

/-- Formats N and P, with a payload that is the command's own. -/
theorem areFieldsOf_of_requireZeroArg {op arg : Nat} {p : List Byte} {ok : Bool} {c i : Instr}
    (h : requireZeroArg arg ok c = .command i) (hop : op = opcodeOf c) (harg : argOf c = 0)
    (hp : ok = true → p = dataOf c) : AreFieldsOf op arg p i := by
  obtain ⟨rfl, hok, rfl⟩ := requireZeroArg_eq_command h
  exact ⟨hop, harg.symm, hp hok⟩

theorem eq_nil_of_decide_length {p : List Byte} (h : decide (p.length = 0) = true) : p = [] :=
  List.eq_nil_of_length_eq_zero (of_decide_eq_true h)

/-- The fields that decode to a command are that command's: format by format, no bit of them is dropped. -/
theorem areFieldsOf_of_decodeFields {op arg : Nat} {p : List Byte} {i : Instr}
    (h : decodeFields op arg p = .command i) : AreFieldsOf op arg p i := by
  unfold decodeFields at h
  split at h
  case h_1 | h_3 | h_9 => exact areFieldsOf_of_requireZeroArg h rfl rfl eq_nil_of_decide_length
  case h_2 | h_10 | h_13 => exact areFieldsOf_of_requireZeroArg h rfl rfl fun _ => rfl
  case h_4 | h_5 => obtain ⟨rfl, rfl⟩ | ⟨rfl, rfl, rfl⟩ := decodeOptional_eq_command h <;> exact ⟨rfl, rfl, rfl⟩
  case h_6 =>
    obtain ⟨rfl, dg, rfl, rfl⟩ := decodeDigest_eq_command h
    exact ⟨rfl, rfl, rfl⟩
  case h_7 | h_8 =>
    obtain ⟨rfl, rfl⟩ := decodeIndex_eq_command h
    exact ⟨rfl, rfl, rfl⟩
  case h_11 =>
    obtain ⟨rfl, b0, b1, b2, b3, rfl, rfl⟩ := decodeQuad_eq_command h
    exact ⟨rfl, rfl, rfl⟩
  case h_12 =>
    refine areFieldsOf_of_requireZeroArg h rfl rfl fun hok => ?_
    have hwhole : p.length = 8 * (p.length / 8) := by
      have := of_decide_eq_true hok
      omega
    exact (bcLongsToBytes_wordsBE _ p hwhole).symm
  case h_14 => cases h

theorem encode_of_decodeWith {m : Nat} {f : Frame} {i : Instr} (h : decodeWith m f = .command i) :
    encode i = f ∧ i.wfWith m = true := by
  obtain ⟨hf, hm, hfields⟩ := decodeWith_command h
  obtain ⟨hop, harg, hp⟩ := areFieldsOf_of_decodeFields hfields
  rw [encode_eq_frameOf, wfWith_iff_fields, ← hop, ← harg, ← hp]
  exact ⟨frameOf_fields f hf, headerArg_lt _, hm⟩

/-- Settles O2: the fields of a legal frame are those of the command, and a frame is the frame of its fields. -/
theorem encodeOfDecodeIsTheFrame : Obligations.EncodeOfDecodeIsTheFrame := fun _ _ _ h => encode_of_decodeWith h

/-- Settles O5: each of the eight frames is evaluated. -/
theorem framesOfTheSpecDecode : Obligations.FramesOfTheSpecDecode := by
  unfold Obligations.FramesOfTheSpecDecode
  decide

end Sys2Proof

/-! PROOFS. Laws of the filter: what was inserted is contained for the rest of the lifetime (spec/41_bloomfilter.md R83),
the order of INSERTs does not matter (R86), what an empty filter answers (R84), LOAD and then STORE (R82), and that the
filter commands always succeed (R88). -/

namespace Sys2Proof.Machine

variable {s t u : State}

/-! ### No false negatives (R83) -/

/-- Once INSERT has been answered, at once or after a wait, every bit of the digest is set. -/
theorem bitAt_of_insert_answered {x : List Byte} {i : BitIndex}
    (h : (s.digestReplies = true ∧ exec (.insert (some x)) s = .next t) ∨
      (s.digestWait = some (.insert x) ∧ step s = .next t))
    (hi : DigestBit (Config.keccak256 x) i) : bitAt t.bv i = true := by
  have hbv : t.bv = bfInsert Config.keccak256 s.bv (some x) := by
    rcases h with ⟨hr, hexec⟩ | ⟨hw, hstep⟩
    · rw [exec_eq_answered hr hexec]
      rfl
    · rw [step_of_waiting hw hstep]
      rfl
  rw [hbv]
  exact (bitAt_bfInsert_some _ s.bv x i).mpr (.inr hi)

/-- CONTAINS of data whose digest bits are all set answers true, and only the response and the request are new. -/
theorem exec_contains_of_digestBits {x : List Byte} (hr : s.digestReplies = true)
    (h : ∀ i, DigestBit (Config.keccak256 x) i → bitAt s.bv i = true) :
    exec (.contains (some x)) s =
      .next { s with rspPort := s.rspPort ++ [[0x00, 0x01]], digPort := s.digPort ++ [x] } := by
  have htrue : bfContains Config.keccak256 s.bv (some x) = true := (bfContains_some_iff _ s.bv x).mpr h
  rw [exec_of_replies _ s hr]
  simp only [answered, abstractCommand, abstractConclusion, htrue]
  rfl

/-- Settles O46: INSERT sets the digest's bits, they stay set along the lifetime, and CONTAINS tests no other. -/
theorem insertedDataIsContained : Obligations.InsertedDataIsContained :=
  fun _ _ _ _ hinsert hlife hr =>
    exec_contains_of_digestBits hr fun _ hi => hlife.keeps_set_bit (bitAt_of_insert_answered hinsert hi)

/-! ### The order of INSERTs (R86) -/

/-- The frames of INSERT for a list of data. -/
def insertFrames (xs : List (List Byte)) : List Frame := xs.map fun x => encode (.insert (some x))

theorem abstractFrame_insert (hash : List Byte → Digest) (v : BV) {x : List Byte}
    (hx : x.length ≤ Config.maxPayload) :
    (abstractFrame hash v (encode (.insert (some x)))).1 = bfInsert hash v (some x) := by
  rw [abstractFrame, decode_encode ((wfWith_insert _ x).mpr hx)]
  rfl

/-- After a run of INSERTs a bit is set if it was set before or is a digest bit of some data inserted. -/
theorem bitAt_abstractRun_insertFrames (hash : List Byte → Digest) {xs : List (List Byte)} (v : BV) (i : BitIndex)
    (hxs : ∀ x ∈ xs, x.length ≤ Config.maxPayload) :
    bitAt (abstractRun hash v (insertFrames xs)).1 i = true ↔ bitAt v i = true ∨ ∃ x ∈ xs, DigestBit (hash x) i := by
  induction xs generalizing v with
  | nil => simp [insertFrames, abstractRun]
  | cons x xs ih =>
    obtain ⟨hx, hrest⟩ := List.forall_mem_cons.mp hxs
    have hcons : (abstractRun hash v (insertFrames (x :: xs))).1 =
        (abstractRun hash (bfInsert hash v (some x)) (insertFrames xs)).1 := by
      rw [← abstractFrame_insert hash v hx]
      rfl
    rw [hcons, ih _ hrest, bitAt_bfInsert_some, List.exists_mem_cons_iff, or_assoc]

/-- The bits after a run of the engine over INSERT frames. -/
theorem bitAt_of_run_insertFrames {xs : List (List Byte)} (hxs : ∀ x ∈ xs, x.length ≤ Config.maxPayload)
    (hw : s.digestWait = none) (hr : s.digestReplies = true)
    (hrun : core.run xs.length { s with cmdPort := insertFrames xs } = .next t) (i : BitIndex) :
    bitAt t.bv i = true ↔ bitAt s.bv i = true ∨ ∃ x ∈ xs, DigestBit (Config.keccak256 x) i := by
  have hall := core_run_eq_afterFrames (insertFrames xs) (s := { s with cmdPort := insertFrames xs }) hw hr
    (List.append_nil _).symm
  have hlen : (insertFrames xs).length = xs.length := List.length_map _
  rw [hlen] at hall
  cases hall.symm.trans hrun
  exact bitAt_abstractRun_insertFrames _ s.bv i hxs

/-- Settles O49: the bits after a run speak of the data inserted only as a set. -/
theorem insertOrderDoesNotMatter : Obligations.InsertOrderDoesNotMatter := by
  intro xs ys s t u hxs hmem hw hr ht hu
  have hys : ∀ y ∈ ys, y.length ≤ Config.maxPayload := fun y hy => hxs y ((hmem y).mpr hy)
  refine bv_ext_bits fun i => Bool.eq_iff_iff.mpr ?_
  rw [bitAt_of_run_insertFrames hxs hw hr ht i, bitAt_of_run_insertFrames hys hw hr hu i]
  simp only [hmem]

/-! ### The empty filter (R84) -/

/-- With a reply CONTAINS answers what the filter function says and keeps the filter; for absent data too. -/
theorem exec_contains_of_replies (d : Option (List Byte)) (hr : s.digestReplies = true) :
    ∃ t, exec (.contains d) s = .next t ∧ t.bv = s.bv ∧
      t.rspPort = s.rspPort ++ [[0x00, if bfContains Config.keccak256 s.bv d then 0x01 else 0x00]] :=
  ⟨_, exec_of_replies _ s hr, rfl, rfl⟩

/-- The first position of a digest is one that CONTAINS tests, and it is not set. -/
theorem bfContains_of_empty (hash : List Byte → Digest) {v : BV} (hv : ∀ i, bitAt v i = false)
    (d : Option (List Byte)) : bfContains hash v d = false := by
  cases d with
  | none => rfl
  | some data => exact if_neg (by simp [hv])

theorem bitCount_of_empty {v : BV} (hv : ∀ i, bitAt v i = false) : bitCount v = 0 := by
  simp [bitCount, hv]

/-- Settles O47: the image of the empty vector is zeros, no index counts, and a test fails at its first position. -/
theorem emptyFilterContainsNothing : Obligations.EmptyFilterContainsNothing := by
  intro s hempty
  obtain ⟨-, -, hstore⟩ := storeReadsTheFilter
  refine ⟨hstore s hempty, ?_, fun d hr => ?_⟩
  · rw [exec_bvpop, bitCount_of_empty hempty]
    rfl
  · have hcontains := exec_contains_of_replies d hr
    rwa [bfContains_of_empty _ hempty] at hcontains

/-! ### LOAD and then STORE (R82) -/

theorem decode_encode_load {b : List Byte} (h : b.length = 256) : decode (encode (.load b)) = .command (.load b) :=
  decode_encode ((wfWith_load _ b).mpr (by rw [h]; decide))

theorem step_load {b : List Byte} {v : BV} {rest : List Frame} (hw : s.digestWait = none)
    (hc : s.cmdPort = encode (.load b) :: rest) (hb : b.length = 256) (hv : bvFromBytes b = .ok v) :
    step s = .next (State.respond .none (State.setBV v { s with cmdPort := rest })) :=
  (step_of_command hw hc (decode_encode_load hb)).trans (exec_load_of_ok hv _)

theorem step_store {rest : List Frame} (hw : s.digestWait = none) (hc : s.cmdPort = encode .store :: rest) :
    step s = .next (State.respond (.bytes (bvToBytes s.bv)) { s with cmdPort := rest }) :=
  (step_of_command hw hc (decode_encode rfl)).trans (exec_store _)

/-- Settles O51: LOAD leaves the vector whose image is its operand, and STORE answers the image. -/
theorem loadThenStoreReturnsTheImage : Obligations.LoadThenStoreReturnsTheImage := by
  intro b s rest hb hw hc
  obtain ⟨v, hv, -⟩ := bvFromBytes_ok b hb
  refine ⟨_, _, step_load hw hc hb hv, step_store ?_ rfl, rfl, ?_⟩
  · exact hw
  · simp [bvToBytes_of_bvFromBytes hv, resultBytes, statusOk]

/-! ### The filter commands succeed (R88) -/

theorem exists_ok_of_filterCommand (hash : List Byte → Digest) (v : BV) {i : Instr}
    (hi : i.mnemonic ∈ ["INSERT", "CONTAINS", "BITPOS"]) : ∃ r, (abstractCommand hash v i).2 = .ok r := by
  cases i with
  | insert _ | contains _ | bitpos _ => exact ⟨_, rfl⟩
  | _ => simp [Instr.mnemonic] at hi

/-- Settles O50: none of the three has a case that fails. -/
theorem filterCommandsNeverIndexOutOfRange : Obligations.FilterCommandsNeverIndexOutOfRange := by
  intro i s hi hr
  obtain ⟨r, hok⟩ := exists_ok_of_filterCommand Config.keccak256 s.bv hi
  refine ⟨_, resultBytes r, exec_of_replies i s hr, ?_⟩
  rw [answered, hok]
  rfl

end Sys2Proof.Machine

/-! PROOFS. The step and the reset: what one step does in each state (spec/20_memory.md R35; log entry 17), the command
that waits for its digest (spec/70_reset_and_hazards.md R122, U6), the invariant of the ports (spec/30_encoding.md R50,
R51, R55, R56), and what a reset abandons (R117). -/

namespace Sys2Proof.Machine

variable {s t : State}

/-! ### What a step is in each state -/

theorem step_of_no_frame (hw : s.digestWait = none) (hc : s.cmdPort = []) : step s = .next s := by
  simp only [step, stepWith, State.fetch, hw, hc]

theorem step_of_digestWait {w : DigestWait} (hw : s.digestWait = some w) : step s = resumeDigest w s := by
  simp only [step, stepWith, hw]

theorem resumeDigest_of_no_reply (w : DigestWait) (hr : s.digestReplies = false) :
    resumeDigest w s = .fault .digestNoReply := by
  simp only [resumeDigest, hr, Bool.false_eq_true, if_false]

/-- A late reply completes the command as a reply at once would have, without a further request. -/
theorem resumeDigest_of_replies (w : DigestWait) (hr : s.digestReplies = true) :
    resumeDigest w s = .next { answered w.command { s with digestWait := none } with digPort := s.digPort } := by
  rw [resumeDigest, if_pos hr, completeDigest_eq]

/-- Settles O8: with no command in progress a step is the case distinction on the oldest frame. -/
theorem stepRunsTheDecodedCommand : Obligations.StepRunsTheDecodedCommand :=
  fun _ _ _ _ hw hc hd => step_of_command hw hc hd

/-- Settles O9: the step of an engine with no frame is the identity by definition. -/
theorem idleEngineHoldsItsState : Obligations.IdleEngineHoldsItsState := fun _ hw hc => step_of_no_frame hw hc

/-! ### A missing digest reply (R122, U6) -/

/-- A command whose digest is missing is held, cannot step on, and completes with a late reply as it would have at
once. -/
theorem missing_reply_holds (w : DigestWait) (hw : s.digestWait = none) (hr : s.digestReplies = false) :
    ∃ t, exec w.command s = .next t ∧ t.bv = s.bv ∧ t.rspPort = s.rspPort ∧ t.cmdPort = s.cmdPort ∧
      t.digPort = s.digPort ++ [w.data] ∧ step t = .fault .digestNoReply ∧
      step (t.applyHost (.digestPort true)) = exec w.command { s with digestReplies := true } := by
  refine ⟨_, exec_of_no_reply w s hr, rfl, rfl, rfl, rfl, ?_, ?_⟩
  · exact (step_of_digestWait rfl).trans (resumeDigest_of_no_reply w hr)
  · rw [step_of_digestWait rfl, resumeDigest_of_replies w rfl, exec_of_replies _ _ rfl]
    simp only [State.applyHost, answered, w.command_digestRequests, hw]

/-- Settles O10: INSERT and CONTAINS of data are the commands that can wait for a digest. -/
theorem missingDigestReplyHoldsTheCommand : Obligations.MissingDigestReplyHoldsTheCommand := by
  rintro s data i hw hr (rfl | rfl)
  · exact missing_reply_holds (.insert data) hw hr
  · exact missing_reply_holds (.contains data) hw hr

/-- Every command answers a next state, and none touches the collaborator's flag. -/
theorem exists_exec_next (i : Instr) (s : State) :
    ∃ t, exec i s = .next t ∧ t.digestReplies = s.digestReplies := by
  obtain hanswered | ⟨w, -, -, hwaits⟩ := exec_cases i s
  · exact ⟨_, hanswered, rfl⟩
  · exact ⟨_, hwaits, rfl⟩

theorem exists_step_next_of_not_waiting (hw : s.digestWait = none) :
    ∃ t, step s = .next t ∧ t.digestReplies = s.digestReplies := by
  cases hc : s.cmdPort with
  | nil => exact ⟨s, step_of_no_frame hw hc, rfl⟩
  | cons f rest =>
    cases hd : decode f with
    | illegal r => exact ⟨_, step_of_illegal hw hc hd, rfl⟩
    | command i =>
      rw [step_of_command hw hc hd]
      exact exists_exec_next i { s with cmdPort := rest }

/-- Settles O11: a step that takes a frame or idles answers a next state, and one that finds a waiting command does so
exactly when the collaborator replies. -/
theorem stepStopsOnlyWithoutDigestReply : Obligations.StepStopsOnlyWithoutDigestReply := by
  intro s
  cases hw : s.digestWait with
  | none => exact .inl (exists_step_next_of_not_waiting hw)
  | some w =>
    rw [step_of_digestWait hw]
    cases hr : s.digestReplies with
    | true => exact .inl ⟨_, resumeDigest_of_replies w hr, hr⟩
    | false => exact .inr ⟨nofun, rfl, resumeDigest_of_no_reply w hr⟩

/-! ### The invariant of the ports (R50, R51, R55, R56) -/

theorem legalResponse_of_ok (r : Result) : legalResponse (responseFrame (.ok r)) = true := rfl

/-- What a command answers is a legal response: it succeeds, or refuses its length or its index. -/
theorem legalResponse_abstractCommand (hash : List Byte → Digest) (v : BV) (i : Instr) :
    legalResponse (responseFrame (abstractCommand hash v i).2) = true := by
  by_cases hlen : RefusesLength i
  · rw [abstractCommand_of_refusesLength hash v hlen]
    rfl
  by_cases hidx : RefusesIndex i
  · rw [abstractCommand_of_refusesIndex hash v hidx]
    rfl
  · obtain ⟨r, hr⟩ := abstractCommand_of_not_refuses hash v hlen hidx
    rw [hr]
    exact legalResponse_of_ok r

/-- A command that a frame carries requests the digest only of data that fits a payload (R55). -/
theorem length_le_of_mem_digestRequests {f : Frame} {i : Instr} (h : decode f = .command i) {d : List Byte}
    (hd : d ∈ i.digestRequests) : d.length ≤ Config.maxPayload := by
  obtain ⟨-, hwf⟩ := encode_of_decodeWith h
  cases i with
  | insert x =>
    cases x with
    | none => cases hd
    | some data =>
      obtain rfl := List.mem_singleton.mp hd
      exact (wfWith_insert _ d).mp hwf
  | contains x =>
    cases x with
    | none => cases hd
    | some data =>
      obtain rfl := List.mem_singleton.mp hd
      exact (wfWith_contains _ d).mp hwf
  | _ => cases hd

/-- The invariant is kept when a legal response is emitted and no command comes to wait. -/
theorem PortsInv.of_emit {r : Frame} (h : PortsInv s) (hlegal : legalResponse r = true)
    (hrsp : t.rspPort = s.rspPort ++ [r]) (hdig : ∀ d ∈ t.digPort, d.length ≤ Config.maxPayload)
    (hw : t.digestWait = none) : PortsInv t := by
  obtain ⟨hlegals, -, -⟩ := h
  refine ⟨?_, hdig, by simp [hw]⟩
  rw [hrsp, List.forall_mem_append]
  exact ⟨hlegals, List.forall_mem_singleton.mpr hlegal⟩

/-- A command taken from a frame keeps the invariant, whether it is answered or comes to wait. -/
theorem PortsInv.of_exec {f : Frame} {i : Instr} (h : PortsInv s) (hd : decode f = .command i)
    (hw : s.digestWait = none) (hexec : exec i s = .next t) : PortsInv t := by
  have ⟨hlegals, hfits, _⟩ := h
  have hdig : ∀ d ∈ t.digPort, d.length ≤ Config.maxPayload := by
    rw [exec_digPort hexec, List.forall_mem_append]
    exact ⟨hfits, fun d => length_le_of_mem_digestRequests hd⟩
  obtain hanswered | ⟨w, -, -, hwaits⟩ := exec_cases i s
  · cases hanswered.symm.trans hexec
    exact h.of_emit (legalResponse_abstractCommand _ s.bv i) rfl hdig hw
  · cases hwaits.symm.trans hexec
    refine ⟨hlegals, hdig, fun w' hw' => ?_⟩
    cases hw'
    exact List.getLast?_concat

theorem PortsInv.of_step (h : PortsInv s) (hstep : step s = .next t) : PortsInv t := by
  have ⟨_, hfits, _⟩ := h
  obtain ⟨-, -, rfl⟩ | ⟨f, rest, r, hw, -, -, rfl⟩ | ⟨f, rest, i, hw, -, hd, hexec⟩ | ⟨w, -, -, rfl⟩ :=
    step_cases hstep
  · exact h
  · exact h.of_emit (r := [0xFF]) rfl rfl hfits hw
  · exact PortsInv.of_exec (s := { s with cmdPort := rest }) h hd hw hexec
  · exact h.of_emit (legalResponse_abstractCommand _ s.bv w.command) rfl hfits rfl

/-- A host event emits nothing; it leaves a waiting command as it is, or a reset drops it. -/
theorem PortsInv.of_applyHost (h : PortsInv s) (e : HostEvent) : PortsInv (s.applyHost e) := by
  cases e with
  | byte _ | frameEnd | digestPort _ => exact h
  | reset =>
    obtain ⟨hlegals, hfits, -⟩ := h
    exact ⟨hlegals, hfits, nofun⟩

/-- Settles O52: a step emits the answer of a command or of an illegal frame, and a request is the data of a frame. -/
theorem stepsKeepThePortsInvariant : Obligations.StepsKeepThePortsInvariant :=
  ⟨fun _ _ h hstep => h.of_step hstep, fun _ e h => h.of_applyHost e⟩

/-- Settles O53: right after reset nothing has passed a port and no command waits. -/
theorem portsInvariantAtReset : Obligations.PortsInvariantAtReset :=
  ⟨List.forall_mem_nil _, List.forall_mem_nil _, nofun⟩

/-! ### Reset abandons what is in progress (R117) -/

/-- Bytes that arrive one after another are appended to the frame partly received, and to nothing else. -/
theorem foldl_applyHost_byte (f : Frame) (s : State) :
    f.foldl (fun t b => t.applyHost (.byte b)) s = { s with rx := s.rx ++ f } := by
  induction f generalizing s with
  | nil => simp
  | cons b f ih =>
    rw [List.foldl_cons, ih]
    simp [State.applyHost]

/-- Settles O55: a reset empties the receive buffer and the command port, so the bytes after it are the whole frame. -/
theorem resetAbandonsWhatIsInProgress : Obligations.ResetAbandonsWhatIsInProgress := by
  refine fun s f => ⟨rfl, rfl, rfl, ?_⟩
  rw [foldl_applyHost_byte]
  rfl

end Sys2Proof.Machine

/-! PROOFS. What a command may change and what its answer depends on: the frame of every command (spec/20_memory.md R30),
commands that do not write commute (R36), and a response frame loses nothing of the response (spec/30_encoding.md R50 to
R52). -/

namespace Sys2Proof.Machine

variable {s t u : State}

/-! ### The frame of every command (R30) -/

/-- A command changes nothing but the filter, the ports and the digest wait, and the filter only if it writes. -/
theorem exec_frame {i : Instr} (h : exec i s = .next t) :
    t = { s with bv := t.bv, rspPort := t.rspPort, digPort := t.digPort, digestWait := t.digestWait } ∧
    (i.writesBV = false → t.bv = s.bv) := by
  obtain hanswered | ⟨w, -, -, hwaits⟩ := exec_cases i s
  · cases hanswered.symm.trans h
    exact ⟨rfl, abstractCommand_bv_of_not_writesBV _ s.bv⟩
  · cases hwaits.symm.trans h
    exact ⟨rfl, fun _ => rfl⟩

/-- The commands that can change bit `j` of the filter. -/
def MayChangeBit (hash : List Byte → Digest) (j : BitIndex) (i : Instr) : Prop :=
  i = .clear ∨ (∃ buf, i = .load buf ∧ buf.length = 256) ∨ i = .bvset j.val ∨
    ∃ data, i = .insert (some data) ∧ DigestBit (hash data) j

/-- A bit that BVSET changed is the one at its index. -/
theorem eq_of_bitAt_bvset_ne {hash : List Byte → Digest} {v : BV} {idx : Nat} {j : BitIndex}
    (h : bitAt (abstractCommand hash v (.bvset idx)).1 j ≠ bitAt v j) : idx = j.val := by
  rw [abstractCommand_bvset] at h
  split at h
  case isTrue hidx =>
    by_contra hne
    have hj : j ≠ ⟨idx, hidx⟩ := fun e => hne (congrArg Fin.val e).symm
    exact h (by simp [bitAt_setBit, hj])
  case isFalse => exact absurd rfl h

/-- A bit that INSERT of data changed is one of its digest. -/
theorem digestBit_of_bitAt_bfInsert_ne {hash : List Byte → Digest} {v : BV} {data : List Byte} {j : BitIndex}
    (h : bitAt (bfInsert hash v (some data)) j ≠ bitAt v j) : DigestBit (hash data) j := by
  by_contra hj
  refine h (Bool.eq_iff_iff.mpr ?_)
  rw [bitAt_bfInsert_some, or_iff_left hj]

/-- A bit that is not what it was was changed by a command that may change it. -/
theorem mayChangeBit_of_bitAt_ne {hash : List Byte → Digest} {v : BV} {i : Instr} {j : BitIndex}
    (h : bitAt (abstractCommand hash v i).1 j ≠ bitAt v j) : MayChangeBit hash j i := by
  cases i with
  | clear => exact .inl rfl
  | load buf =>
    refine .inr (.inl ⟨buf, rfl, by_contra fun hlen => h ?_⟩)
    rw [abstractCommand_bv_of_error (abstractCommand_of_refusesLength hash v (.inl ⟨buf, rfl, hlen⟩))]
  | bvset idx => exact .inr (.inr (.inl (congrArg Instr.bvset (eq_of_bitAt_bvset_ne h))))
  | insert d =>
    cases d with
    | none => exact absurd rfl h
    | some data => exact .inr (.inr (.inr ⟨data, rfl, digestBit_of_bitAt_bfInsert_ne h⟩))
  | store | contains _ | bitpos _ | bvget _ | bvpop | popcnt _ | u32be _ _ _ _ | pack _ | unpack _ =>
    rw [abstractCommand_bv_of_not_writesBV hash v rfl] at h
    exact absurd rfl h

theorem mayChangeBit_of_exec {i : Instr} {j : BitIndex} (h : exec i s = .next t) (hj : bitAt t.bv j ≠ bitAt s.bv j) :
    MayChangeBit Config.keccak256 j i := by
  obtain hanswered | ⟨w, -, -, hwaits⟩ := exec_cases i s
  · cases hanswered.symm.trans h
    exact mayChangeBit_of_bitAt_ne hj
  · cases hwaits.symm.trans h
    exact absurd rfl hj

/-! ### What an answer depends on (R30) -/

theorem digestRequests_eq_nil_or_command (i : Instr) : i.digestRequests = [] ∨ ∃ w : DigestWait, i = w.command := by
  by_cases h : ∀ data, i ≠ .insert (some data) ∧ i ≠ .contains (some data)
  · exact .inl (digestRequests_eq_nil h)
  · push Not at h
    obtain ⟨data, h⟩ := h
    by_cases hi : i = .insert (some data)
    · exact .inr ⟨.insert data, hi⟩
    · exact .inr ⟨.contains data, h hi⟩

/-- Filters on which a command gives the same answer leave the same records at the ports: the command is answered at
both, or waits at both. -/
theorem ports_eq_of_response_eq {i : Instr} {v : BV}
    (hresponse : (abstractCommand Config.keccak256 s.bv i).2 = (abstractCommand Config.keccak256 v i).2)
    (ht : exec i s = .next t) (hu : exec i { s with bv := v } = .next u) :
    t.rspPort = u.rspPort ∧ t.digPort = u.digPort := by
  refine ⟨?_, (exec_digPort ht).trans (exec_digPort hu).symm⟩
  obtain hdig | ⟨w, rfl⟩ := digestRequests_eq_nil_or_command i
  · cases (exec_of_no_digest i s hdig).symm.trans ht
    cases (exec_of_no_digest i _ hdig).symm.trans hu
    simp only [answered, hresponse]
  cases hr : s.digestReplies with
  | true =>
    cases exec_eq_answered hr ht
    cases exec_eq_answered (s := { s with bv := v }) hr hu
    simp only [answered, hresponse]
  | false =>
    cases (exec_of_no_reply w s hr).symm.trans ht
    cases (exec_of_no_reply w { s with bv := v } hr).symm.trans hu
    rfl

/-- A command outside the reading column of R30 answers alike at every filter. -/
theorem response_eq_of_not_readsBV (hash : List Byte → Digest) (v w : BV) {i : Instr} (hi : i.readsBV = false) :
    (abstractCommand hash v i).2 = (abstractCommand hash w i).2 := by
  cases i with
  | store | contains _ | bvget _ | bvpop => cases hi
  | load buf =>
    simp only [abstractCommand, abstractConclusion]
    cases bvFromBytes buf <;> rfl
  | unpack buf =>
    simp only [abstractCommand, abstractConclusion]
    cases bcBytesToLongs buf <;> rfl
  | bvset idx =>
    simp only [abstractCommand, abstractConclusion, bvSet]
    cases bitIndex idx <;> rfl
  | clear | insert _ | bitpos _ | popcnt _ | u32be _ _ _ _ | pack _ => rfl

theorem abstractCommand_bvget (hash : List Byte → Digest) (v : BV) {idx : Nat} (h : idx < 2048) :
    (abstractCommand hash v (.bvget idx)).2 = .ok (.bool (bitAt v ⟨idx, h⟩)) := by
  simp only [abstractCommand, abstractConclusion, bvGet_of_lt v h, Except.map]

theorem bfContains_congr (hash : List Byte → Digest) {v w : BV} {data : List Byte}
    (h : ∀ i, DigestBit (hash data) i → bitAt v i = bitAt w i) :
    bfContains hash v (some data) = bfContains hash w (some data) := by
  rw [Bool.eq_iff_iff, bfContains_some_iff, bfContains_some_iff]
  exact forall₂_congr fun i hi => by rw [h i hi]

/-- Settles O17: a command's effect is that of the abstract command, whose answer reads what R30 says. -/
theorem commandsTouchWhatTheAccessTableSays : Obligations.CommandsTouchWhatTheAccessTableSays := by
  refine ⟨fun i s t h => exec_frame h, fun i s t j h hj => mayChangeBit_of_exec h hj,
    fun i s t u v hi ht hu => ports_eq_of_response_eq (response_eq_of_not_readsBV _ _ _ hi) ht hu,
    fun idx h s t u v hbit ht hu => (ports_eq_of_response_eq ?_ ht hu).1,
    fun data s t u v hbits ht hu => (ports_eq_of_response_eq ?_ ht hu).1⟩
  · rw [abstractCommand_bvget _ _ h, abstractCommand_bvget _ _ h, hbit]
  · exact congrArg (fun b => Response.ok (.bool b)) (bfContains_congr _ hbits)

/-! ### Commands that do not write commute (R36) -/

/-- A command that does not write is answered by appending its response, and the filter is kept. -/
theorem exec_of_not_writesBV {i : Instr} (hr : s.digestReplies = true) (hi : i.writesBV = false) :
    ∃ t, exec i s = .next t ∧ t.bv = s.bv ∧ t.digestReplies = true ∧
      t.rspPort = s.rspPort ++ [responseFrame (abstractCommand Config.keccak256 s.bv i).2] :=
  ⟨_, exec_of_replies i s hr, abstractCommand_bv_of_not_writesBV _ _ hi, hr, rfl⟩

/-- Two such commands, one after the other, each give the answer they give at the first filter. -/
theorem exec_exec_of_not_writesBV {i j : Instr} (hr : s.digestReplies = true) (hi : i.writesBV = false)
    (hj : j.writesBV = false) : ∃ t u, exec i s = .next t ∧ exec j t = .next u ∧ u.bv = s.bv ∧
      u.rspPort = s.rspPort ++ [responseFrame (abstractCommand Config.keccak256 s.bv i).2,
        responseFrame (abstractCommand Config.keccak256 s.bv j).2] := by
  obtain ⟨t, ht, htbv, htr, htrsp⟩ := exec_of_not_writesBV hr hi
  obtain ⟨u, hu, hubv, -, hursp⟩ := exec_of_not_writesBV htr hj
  refine ⟨t, u, ht, hu, hubv.trans htbv, ?_⟩
  rw [hursp, htrsp, htbv, List.append_assoc, List.singleton_append]

/-- Settles O19: in both orders each command answers at the one filter that neither writes. -/
theorem readOnlyCommandsCommute : Obligations.ReadOnlyCommandsCommute := by
  intro i j s hr hi hj
  obtain ⟨a, ab, ha, hab, habbv, habrsp⟩ := exec_exec_of_not_writesBV hr hi hj
  obtain ⟨b, ba, hb, hba, hbabv, hbarsp⟩ := exec_exec_of_not_writesBV hr hj hi
  exact ⟨_, _, a, b, ab, ba, ha, hab, hb, hba, habbv, hbabv, habrsp, hbarsp⟩

/-! ### A response frame loses nothing (R50 to R52) -/

/-- The error kind of a status byte other than OK (R51). -/
def errorOfStatus (st : Byte) : ErrorKind :=
  if st = 0x01 then .invalidSize
  else if st = 0x02 then .invalidLength
  else if st = 0x03 then .indexOutOfRange
  else if st = 0x04 then .decodeError
  else .illegalCommand

/-- The result that the bytes after status OK carry, read as the opcode of the command says (R52). -/
def readResult (op : Nat) (bs : List Byte) : Result :=
  match op with
  | 0x03 | 0x22 => .bytes bs
  | 0x05 | 0x11 => .bool (decide (bs = [0x01]))
  | 0x06 =>
    .positions (Fin.ofNat 2048 (beNat (bs.take 2))) (Fin.ofNat 2048 (beNat ((bs.drop 2).take 2)))
      (Fin.ofNat 2048 (beNat (bs.drop 4)))
  | 0x12 | 0x20 => .count (beNat bs)
  | 0x21 => .u32 (BitVec.ofNat 32 (beNat bs))
  | 0x23 => .words (wordsBE bs)
  | _ => .none

/-- The response that a response frame to a command of this opcode carries. -/
def readResponse (op : Nat) (f : Frame) : Response :=
  match f with
  | [] => .error .illegalCommand
  | st :: bs => if st = statusOk then .ok (readResult op bs) else .error (errorOfStatus st)

theorem readResponse_error (op : Nat) (k : ErrorKind) : readResponse op (responseFrame (.error k)) = .error k := by
  cases k <;> rfl

theorem readResult_bool (op : Nat) (b : Bool) (hop : op = 0x05 ∨ op = 0x11) :
    readResult op (resultBytes (.bool b)) = .bool b := by
  rcases hop with rfl | rfl <;> cases b <;> rfl

theorem ofNat_beNat_beBytes_two (p : BitIndex) : Fin.ofNat 2048 (beNat (beBytes 2 p.val)) = p := by
  apply Fin.ext
  have hp := p.isLt
  rw [beNat_beBytes, Fin.val_ofNat]
  omega

theorem readResult_positions (p0 p1 p2 : BitIndex) :
    readResult 0x06 (resultBytes (.positions p0 p1 p2)) = .positions p0 p1 p2 := by
  simp [readResult, resultBytes, List.drop_append, List.drop_eq_nil_of_le, ofNat_beNat_beBytes_two,
    -Fin.ofNat_eq_cast]

theorem readResult_count (op : Nat) {n : Nat} (hop : op = 0x12 ∨ op = 0x20) (hn : n < 2 ^ 32) :
    readResult op (resultBytes (.count n)) = .count n := by
  have hread : beNat (beBytes 4 n) = n := by
    rw [beNat_beBytes]
    exact Nat.mod_eq_of_lt hn
  rcases hop with rfl | rfl <;> exact congrArg Result.count hread

theorem readResult_u32 (v : BitVec 32) : readResult 0x21 (resultBytes (.u32 v)) = .u32 v := by
  refine congrArg Result.u32 ((congrArg (BitVec.ofNat 32) (beNat_beBytes 4 v.toNat)).trans ?_)
  have hv : v.toNat < 256 ^ 4 := v.isLt
  rw [Nat.mod_eq_of_lt hv, BitVec.ofNat_toNat, BitVec.setWidth_eq]

theorem exists_ok_of_map_eq_ok {α β : Type} {x : Except ErrorKind α} {f : α → β} {b : β} (h : x.map f = .ok b) :
    ∃ a, f a = b := by
  cases x with
  | error k => cases h
  | ok a => exact ⟨a, Except.ok.inj h⟩

/-- The result of a well-formed command that succeeds is read back from its bytes. -/
theorem readResult_abstractConclusion {hash : List Byte → Digest} {v v' : BV} {i : Instr} {r : Result}
    (hi : i.wf = true) (h : abstractConclusion hash v i = .ok (v', r)) :
    readResult (opcodeOf i) (resultBytes r) = r := by
  cases i with
  | clear | insert _ | store | pack _ =>
    cases h
    rfl
  | load _ | bvset _ =>
    obtain ⟨_, hr⟩ := exists_ok_of_map_eq_ok h
    cases hr
    rfl
  | unpack _ =>
    obtain ⟨ws, hr⟩ := exists_ok_of_map_eq_ok h
    cases hr
    exact congrArg Result.words (wordsBE_bcLongsToBytes ws)
  | bvget _ =>
    obtain ⟨b, hr⟩ := exists_ok_of_map_eq_ok h
    cases hr
    exact readResult_bool _ b (.inr rfl)
  | contains _ =>
    cases h
    exact readResult_bool _ _ (.inl rfl)
  | bitpos _ =>
    cases h
    exact readResult_positions _ _ _
  | bvpop =>
    cases h
    have hle := bitCount_le v
    rw [← bcPopcount_bvToBytes] at hle
    exact readResult_count _ (.inl rfl) (by omega)
  | popcnt buf =>
    cases h
    have hlen : buf.length ≤ 16777215 := (wfWith_popcnt Config.maxPayload buf).mp hi
    have hle := bcPopcount_le buf
    exact readResult_count _ (.inr rfl) (by omega)
  | u32be _ _ _ _ =>
    cases h
    exact readResult_u32 _

/-- The response of a well-formed command is read back from its frame. -/
theorem readResponse_abstractCommand (hash : List Byte → Digest) (v : BV) {i : Instr} (hi : i.wf = true) :
    readResponse (opcodeOf i) (responseFrame (abstractCommand hash v i).2) = (abstractCommand hash v i).2 := by
  unfold abstractCommand
  cases h : abstractConclusion hash v i with
  | ok p => exact congrArg Response.ok (readResult_abstractConclusion hi h)
  | error k => exact readResponse_error _ k

/-- Settles O6: two commands of one mnemonic have one opcode, and by it the response is read back from the frame. -/
theorem responseFrameDeterminesResponse : Obligations.ResponseFrameDeterminesResponse := by
  intro hash i j v w hi hj hmnemonic hframe
  obtain ⟨r, hr, hrow, hop⟩ := exists_row_of_instr j
  have hopcode : opcodeOf i = opcodeOf j := (opcodeOf_eq_op hr (hmnemonic.trans hrow.symm)).trans hop
  rw [← readResponse_abstractCommand hash v hi, hframe, hopcode, readResponse_abstractCommand hash w hj]

end Sys2Proof.Machine

/-! PROOFS. Views and functions: the laws of setting and getting bits (spec/40_bitvector.md R71), the big-integer view
(spec/10_state.md R15), the bit and byte spaces (spec/20_memory.md R28), filters stored alike (spec/10_state.md R25), the
inverse codec functions and `bc_u32FromBytes` (spec/42_bytecodec.md R90, R93). -/

namespace Sys2Proof.Machine

/-! ### Setting and getting bits (R71) -/

theorem bitAt_setBit_same (v : BV) (i : BitIndex) : bitAt (setBit v i) i = true := by
  simp [bitAt_setBit]

theorem bitAt_setBit_of_ne (v : BV) {i j : BitIndex} (h : j ≠ i) : bitAt (setBit v i) j = bitAt v j := by
  simp [bitAt_setBit, h]

theorem bitAt_setBit_of_set {v : BV} (i : BitIndex) {j : BitIndex} (h : bitAt v j = true) :
    bitAt (setBit v i) j = true := by
  simp [bitAt_setBit, h]

theorem setBit_comm (v : BV) (i j : BitIndex) : setBit (setBit v i) j = setBit (setBit v j) i :=
  bv_ext_bits fun k => by simp only [bitAt_setBit, Bool.or_left_comm]

/-- Settles O32: in range `bv_set` and `bv_get` are `setBit` and `bitAt`, and each law is one of theirs. -/
theorem setAndGetLaws : Obligations.SetAndGetLaws := by
  intro v i j hi hj
  refine ⟨_, _, _, _, _, bvSet_of_lt v hi, bvSet_of_lt v hj, bvSet_of_lt _ hi, bvSet_of_lt _ hj, bvSet_of_lt _ hi,
    ?_, fun hne => ?_, setBit_of_bitAt (bitAt_setBit_same v _), setBit_comm v _ _, fun hset => ?_⟩
  · rw [bvGet_of_lt _ hi, bitAt_setBit_same]
  · rw [bvGet_of_lt _ hj, bvGet_of_lt _ hj, bitAt_setBit_of_ne v fun e => hne (congrArg Fin.val e)]
  · rw [bvGet_of_lt _ hj] at hset ⊢
    rw [bitAt_setBit_of_set _ (Except.ok.inj hset)]

/-! ### The big-integer view (R15) -/

/-- Bit `n` of the byte `k` places from the end is bit `8k + n` of the big-endian number. -/
theorem testBit_beNat_reverse (bs : List Byte) (k n : Nat) (hn : n < 8) :
    (beNat bs.reverse).testBit (8 * k + n) = (bs.getD k 0).getLsbD n := by
  induction bs generalizing k with
  | nil => simp
  | cons b bs ih =>
    rw [List.reverse_cons, beNat_concat, show (256 : Nat) = 2 ^ 8 from rfl, Nat.mul_comm,
      Nat.testBit_two_pow_mul_add _ b.isLt]
    cases k with
    | zero => simp [hn, BitVec.getLsbD]
    | succ k =>
      have hlt : ¬ 8 * (k + 1) + n < 8 := by omega
      have hsub : 8 * (k + 1) + n - 8 = 8 * k + n := by omega
      rw [if_neg hlt, hsub, ih, List.getD_cons_succ]

/-- Settles O34: bit `2047 - i` lies in the byte that holds vector bit `i`, at the place R14 gives it. -/
theorem bigIntegerViewHasTheBits : Obligations.BigIntegerViewHasTheBits := by
  intro v i
  have hsplit : 2047 - i.val = 8 * (255 - i.val / 8) + (7 - i.val % 8) := by omega
  have hbyte : (List.ofFn (byteAt v)).reverse.getD (255 - i.val / 8) 0 = byteAt v ⟨i.val / 8, by omega⟩ := by
    have hlast : 256 - 1 - (255 - i.val / 8) = i.val / 8 := by omega
    have hlt : 255 - i.val / 8 < (List.ofFn (byteAt v)).reverse.length := by
      rw [List.length_reverse, List.length_ofFn]
      omega
    rw [List.getD_eq_getElem _ _ hlt, List.getElem_reverse, List.getElem_ofFn]
    simp only [List.length_ofFn, hlast]
  rw [bigInteger, hsplit, ← List.reverse_reverse (List.ofFn _), testBit_beNat_reverse _ _ _ (by omega), hbyte,
    bitAt_eq_byteAt]

/-! ### The bit space and the byte space (R28) -/

/-- Setting a bit ORs its weight into its byte and leaves the other bytes. -/
theorem byteAt_setBit (v : BV) (i : BitIndex) (j : Fin 256) : byteAt (setBit v i) j =
    if j.val = i.val / 8 then byteAt v j ||| BitVec.twoPow 8 (7 - i.val % 8) else byteAt v j := by
  apply BitVec.eq_of_getLsbD_eq
  intro n hn
  have hplace : 7 - i.val % 8 < 8 := by omega
  have hbit : decide ((⟨8 * j.val + (7 - n), by omega⟩ : BitIndex) = i) =
      (decide (j.val = i.val / 8) && decide (n = 7 - i.val % 8)) := by
    rw [← Bool.decide_and, decide_eq_decide, Fin.ext_iff]
    dsimp only
    omega
  rw [byteAt_getLsbD _ _ n hn, bitAt_setBit, ← byteAt_getLsbD v j n hn, hbit]
  by_cases hj : j.val = i.val / 8
  · rw [if_pos hj, BitVec.getLsbD_or, BitVec.getLsbD_twoPow, Bool.or_comm]
    simp [hj, hplace, eq_comm]
  · simp [hj]

/-- After LOAD of 256 bytes a bit of the filter is that bit of its byte of the payload. -/
theorem bitAt_of_bvFromBytes {buf : List Byte} {v : BV} (h : bvFromBytes buf = .ok v) (i : BitIndex) :
    bitAt v i = buf[i.val / 8]!.getLsbD (7 - i.val % 8) := by
  rw [bitAt_eq_byteAt, List.getElem!_eq_getElem?_getD, byteAt_of_bvFromBytes h ⟨i.val / 8, by omega⟩, Option.getD_some]

/-- Settles O35: BVSET is `setBit`, seen through bytes; LOAD is `bv_fromBytes`, seen through bits. -/
theorem bitAndByteSpacesShareTheBits : Obligations.BitAndByteSpacesShareTheBits := by
  refine ⟨fun idx s t hidx h j => ?_, fun buf idx s t hlen hidx h => ?_⟩
  · cases (exec_bvset_of_lt hidx s).symm.trans h
    exact byteAt_setBit s.bv ⟨idx, hidx⟩ j
  · obtain ⟨v, hv, -⟩ := bvFromBytes_ok buf hlen
    cases (exec_load_of_ok hv s).symm.trans h
    rw [exec_bvget_of_lt hidx, ← bitAt_of_bvFromBytes hv ⟨idx, hidx⟩]
    rfl

/-! ### Filters stored alike (R25) -/

theorem bvToBytes_injective : Function.Injective bvToBytes := fun v w h =>
  Except.ok.inj ((bvFromBytes_bvToBytes v).symm.trans ((congrArg bvFromBytes h).trans (bvFromBytes_bvToBytes w)))

/-- Settles O36: a filter is read back from its serialized form. -/
theorem filtersEqualWhenStoredAlike : Obligations.FiltersEqualWhenStoredAlike :=
  fun _ _ => bvToBytes_injective.eq_iff.symm

/-! ### The codec functions (R90, R93) -/

/-- Settles O42: the bytes of words are whole words, and whole words are read from whole words of bytes. -/
theorem codecFunctionsAreInverse : Obligations.CodecFunctionsAreInverse := by
  refine ⟨fun ws => ?_, fun b hb => ⟨_, bcBytesToLongs_ok hb, bcLongsToBytes_wordsBE (b.length / 8) b (by omega)⟩⟩
  rw [bcBytesToLongs_ok (by simp), wordsBE_bcLongsToBytes]

theorem low8_eq_emod (b : Int) : (low8 b : Int) = b % 256 := by
  rw [low8]
  omega

theorem low8_lt (b : Int) : low8 b < 256 := by
  rw [low8]
  omega

/-- The sum of four masked bytes does not wrap around in 32 bits. -/
theorem toNat_bcU32FromBytes (b0 b1 b2 b3 : Int) : (bcU32FromBytes b0 b1 b2 b3).toNat =
    low8 b0 * 2 ^ 24 + low8 b1 * 2 ^ 16 + low8 b2 * 2 ^ 8 + low8 b3 := by
  have h0 := low8_lt b0
  have h1 := low8_lt b1
  have h2 := low8_lt b2
  have h3 := low8_lt b3
  rw [bcU32FromBytes, BitVec.toNat_ofNat, Nat.mod_eq_of_lt (by omega)]

/-- Settles O43: each argument is masked to its residue, and the four examples are evaluated. -/
theorem u32FromBytesMasksItsArguments : Obligations.U32FromBytesMasksItsArguments := by
  refine ⟨fun b0 b1 b2 b3 => ?_, by decide, by decide, by decide, by decide⟩
  rw [toNat_bcU32FromBytes]
  push_cast [low8_eq_emod]
  rfl

end Sys2Proof.Machine

/-! PROOFS. The text of a command: its mnemonic and its written operands spell it, and comments are not read
(spec/30_encoding.md R57). -/

namespace Sys2Proof.Machine

/-! ### The text of a command (R57) -/

theorem spellsRow_of_mnemonic : ∀ r ∈ opcodeTable, SpellsRow r.mnemonic.toList r := by
  unfold SpellsRow IsToken
  decide

/-- Text after the first comment mark is not read. -/
theorem assembleLine_comment {line : List Char} (h : '#' ∉ line) (comment : List Char) :
    assembleLine (line ++ '#' :: comment) = assembleLine line := by
  have hline : ∀ c ∈ line, decide (c ≠ '#') = true := fun c hc => decide_eq_true fun e => h (e ▸ hc)
  have htext : (line ++ '#' :: comment).takeWhile (· ≠ '#') = line := by
    rw [List.takeWhile_append_of_pos hline, List.takeWhile_cons_of_neg (by decide), List.append_nil]
  rw [assembleLine, assembleLine, htext, takeWhile_no_comment h]

/-- Settles O56: a mnemonic spells the opcode of its row, and written operands are read back. -/
theorem textOfACommandSpellsIt : Obligations.TextOfACommandSpellsIt := by
  refine ⟨fun i hi => ?_, fun line comment h => assembleLine_comment h comment⟩
  obtain ⟨r, hr, hmnemonic, -⟩ := exists_row_of_instr i
  rw [← hmnemonic]
  exact (spellsRow_of_mnemonic r hr).assembleLine_operandText hr hmnemonic.symm hi

end Sys2Proof.Machine
